-- ==== Sys2Proof/Word.lean ====
section
/-! DEFINITION. The machine's word types (spec 00_scope R6, R7; 10_state R20, R21).
Every quantity is an unsigned value of a stated width; nothing is signed. -/

namespace Sys2Proof

/-- One byte: a general register, a timer, a memory cell, the immediate `nn` (R6, R20). -/
abbrev Byte := BitVec 8

/-- Sixteen bits: an instruction word, `pc`, `I`, a stack entry (R6, R20). -/
abbrev Word := BitVec 16

/-- The twelve-bit address immediate `nnn` (R81, R83). -/
abbrev Addr12 := BitVec 12

/-- A register number: a nibble, so always 0 to 15 (R21, R236). -/
abbrev Reg := Fin 16

/-- The flag register `VF`, general register 15 (R23). -/
abbrev VF : Reg := 15

end Sys2Proof
end

