-- ==== Sys2Proof/Machine/HostOp.lean ====
section
/-! DEFINITION. The five operations the host invokes, as data (45_host_operations R210), and what a host does when no
operation of its script is left (R211). -/

namespace Sys2Proof.Machine

/-- One operation with its arguments (R210). -/
inductive HostOp where
  /-- Execute one instruction; `rnd` is the byte `Cxnn` consumes (R215). -/
  | advance (rnd : Byte)
  /-- Tick both timers (R216). -/
  | advanceTimers
  /-- Set one keypad flag; the index is eight bits wide (R214, D12). -/
  | setKey (index : Byte) (pressed : Bool)
  /-- Copy a byte sequence of any finite length to 0x200 (R213). -/
  | loadRom (bytes : List Byte)
  /-- Restore the power-on state (R260). -/
  | reset
  deriving DecidableEq, Repr, Inhabited

/-- MODEL'S OWN. What the host invokes once its script is used up. Assumption log 6. -/
inductive HostPlan where
  /-- Anything: every further operation, with its arguments, is a free choice (R211). -/
  | anything
  /-- One host among them: it only calls `advance`, each time with a free random byte. -/
  | advancing
  deriving DecidableEq, Repr

end Sys2Proof.Machine
end

