-- ==== Sys2Proof/Config.lean ====
section
/-! DEFINITION. The sizes the spec fixes (00_scope R6) and the two free values of the model.
The parameters that rest on the spec's own decisions (`RESET_PC`, `FONT`, `STACK_DEPTH`, `VF_COLLISION`) are
named in `Machine/Params.lean`. -/

namespace Sys2Proof

/-- The five instructions that write a result to `Vx` and a flag to `VF` (R143). -/
inductive FlagOp where
  | add | sub | shr | subn | shl
  deriving DecidableEq, Repr

/-- Which of the two register writes of such an instruction is made first; the second one stands (R10, R143). -/
inductive WriteOrder where
  | resultThenFlag
  | flagThenResult
  deriving DecidableEq, Repr

namespace Config

/-- Bytes of main memory, addresses 0x000 to 0xFFF (R6, R28). -/
abbrev memSize : Nat := 4096

/-- The address at which `load_rom` places the first byte (R6, R213). -/
abbrev loadAddr : Nat := 0x200

/-- The largest ROM (R6, R213). -/
abbrev maxRom : Nat := memSize - loadAddr

/-- Framebuffer width `W` in cells (R6, R29). -/
abbrev screenW : Nat := 64

/-- Framebuffer height `H` in cells (R6, R29). -/
abbrev screenH : Nat := 32

/-- Keys of the keypad (R6, R30). -/
abbrev numKeys : Nat := 16

/-- FREE VALUE. The byte the environment puts on the `rnd` input of an `advance` whose script names none: any of the
256 values on every call, no law relating one call to another (R141, D8).
It is applied to the count of random bytes drawn so far, so every draw is a value of its own.
Assumption log 1. -/
opaque freeRnd : Nat → Byte

/-- FREE VALUE. The operation the host chooses to invoke next, with its arguments: any of the five with any arguments, at
every step, no law relating one choice to another (R211, R220).
It is applied to the count of choices made so far, so every choice is a value of its own.
Assumption log 6. -/
opaque freeOp : Nat → Machine.HostOp

end Config

end Sys2Proof
end

