-- ==== Sys2Proof/Syntax.lean ====
section
/-! DEFINITION. The instruction set as syntax: one constructor per row of spec/opcode_table.json (R2, R85).
`x`, `y` are register numbers, `nn` and `nnn` immediates, `n` a row count; each type is exactly as wide as its field of the
word (R81, R83). -/

namespace Sys2Proof

/-- The 35 instructions (R85). Each docstring gives the pattern and the rule of its meaning. -/
inductive Instr where
  /-- `0000` NOP (R104). -/
  | nop
  /-- `00E0` CLS (R180). -/
  | cls
  /-- `00EE` RET (R105). -/
  | ret
  /-- `1nnn` JP nnn (R106). -/
  | jp (nnn : Addr12)
  /-- `2nnn` CALL nnn (R107). -/
  | call (nnn : Addr12)
  /-- `3xnn` SE Vx, nn (R109). -/
  | seImm (x : Reg) (nn : Byte)
  /-- `4xnn` SNE Vx, nn (R110). -/
  | sneImm (x : Reg) (nn : Byte)
  /-- `5xy0` SE Vx, Vy (R111). -/
  | seReg (x y : Reg)
  /-- `6xnn` LD Vx, nn (R130). -/
  | ldImm (x : Reg) (nn : Byte)
  /-- `7xnn` ADD Vx, nn (R131). -/
  | addImm (x : Reg) (nn : Byte)
  /-- `8xy0` LD Vx, Vy (R132). -/
  | ldReg (x y : Reg)
  /-- `8xy1` OR Vx, Vy (R133). -/
  | orReg (x y : Reg)
  /-- `8xy2` AND Vx, Vy (R134). -/
  | andReg (x y : Reg)
  /-- `8xy3` XOR Vx, Vy (R135). -/
  | xorReg (x y : Reg)
  /-- `8xy4` ADD Vx, Vy (R136). -/
  | addReg (x y : Reg)
  /-- `8xy5` SUB Vx, Vy (R137). -/
  | subReg (x y : Reg)
  /-- `8xy6` SHR Vx (R138); the `y` nibble is a wildcard the semantics ignore (R86), kept so that no bit is lost. -/
  | shr (x y : Reg)
  /-- `8xy7` SUBN Vx, Vy (R139). -/
  | subnReg (x y : Reg)
  /-- `8xyE` SHL Vx (R140); `y` as in `shr`. -/
  | shl (x y : Reg)
  /-- `9xy0` SNE Vx, Vy (R112). -/
  | sneReg (x y : Reg)
  /-- `Annn` LD I, nnn (R160). -/
  | ldI (nnn : Addr12)
  /-- `Bnnn` JP V0, nnn (R108). -/
  | jpV0 (nnn : Addr12)
  /-- `Cxnn` RND Vx, nn (R141). -/
  | rnd (x : Reg) (nn : Byte)
  /-- `Dxyn` DRW Vx, Vy, n (R181); `n` is the number of sprite rows, 0 to 15. -/
  | drw (x y : Reg) (n : Fin 16)
  /-- `Ex9E` SKP Vx (R190). -/
  | skp (x : Reg)
  /-- `ExA1` SKNP Vx (R191). -/
  | sknp (x : Reg)
  /-- `Fx07` LD Vx, DT (R193). -/
  | ldFromDt (x : Reg)
  /-- `Fx0A` LD Vx, K (R192). -/
  | ldKey (x : Reg)
  /-- `Fx15` LD DT, Vx (R194). -/
  | ldDt (x : Reg)
  /-- `Fx18` LD ST, Vx (R195). -/
  | ldSt (x : Reg)
  /-- `Fx1E` ADD I, Vx (R161). -/
  | addI (x : Reg)
  /-- `Fx29` LD F, Vx (R162). -/
  | ldGlyph (x : Reg)
  /-- `Fx33` LD B, Vx (R163). -/
  | ldBcd (x : Reg)
  /-- `Fx55` LD [I], Vx (R164). -/
  | storeRegs (x : Reg)
  /-- `Fx65` LD Vx, [I] (R165). -/
  | loadRegs (x : Reg)
  deriving DecidableEq, Repr

end Sys2Proof
end

