-- ==== Sys2Proof/WellFormed.lean ====
section
/-! DEFINITION. What a well-formed instruction and a well-formed host operation are.
The operand types of `Instr` already bound every operand, so its checks hold of every term
(`Sys2Proof.Laws.Instr.wf_all`); they are written out so that the bound of each field can be read and tested.
A host operation has two arguments that can be out of range: a key index and a ROM. -/

namespace Sys2Proof

/-- A register number or a row count is a nibble (R83, R236). -/
def nibbleOk (k : Nat) : Bool := decide (k < 16)

/-- `nn` is a byte (R83). -/
def immOk (nn : Nat) : Bool := decide (nn < 256)

/-- `nnn` has twelve bits (R83). -/
def addrOk (nnn : Nat) : Bool := decide (nnn < 4096)

/-- A key number is 0 to 15 (R214, R235). -/
def keyIndexOk (index : Nat) : Bool := decide (index < Config.numKeys)

/-- A ROM fits the load region (R213, R232). -/
def romFits (len : Nat) : Bool := decide (len ≤ Config.maxRom)

/-- Every operand lies in the range its field admits (R83). -/
def Instr.wf : Instr → Bool
  | .nop | .cls | .ret => true
  | .jp nnn | .call nnn | .ldI nnn | .jpV0 nnn => addrOk nnn.toNat
  | .seImm x nn | .sneImm x nn | .ldImm x nn | .addImm x nn | .rnd x nn => nibbleOk x.val && immOk nn.toNat
  | .seReg x y | .sneReg x y | .ldReg x y | .orReg x y | .andReg x y | .xorReg x y
  | .addReg x y | .subReg x y | .shr x y | .subnReg x y | .shl x y => nibbleOk x.val && nibbleOk y.val
  | .drw x y n => nibbleOk x.val && nibbleOk y.val && nibbleOk n.val
  | .skp x | .sknp x | .ldFromDt x | .ldKey x | .ldDt x | .ldSt x
  | .addI x | .ldGlyph x | .ldBcd x | .storeRegs x | .loadRegs x => nibbleOk x.val

/-- The arguments of a host operation are ones it accepts (R213, R214). -/
def Machine.HostOp.wf : Machine.HostOp → Bool
  | .advance _ | .advanceTimers | .reset => true
  | .setKey index _ => keyIndexOk index.toNat
  | .loadRom bytes => romFits bytes.length

end Sys2Proof
end

