-- ==== Sys2Proof/Decode.lean ====
section
/-! DEFINITION. The decoder, the encoder and the opcode map (30_encoding R80 to R89).
A word is split into the nibbles `d1 d2 d3 d4`; fields are read as unsigned numbers (R7, R81). -/

namespace Sys2Proof

/-- Why bytes are no instruction. -/
inductive Reject where
  /-- The word matches none of the 35 patterns (R88). -/
  | unknownOpcode (word : Word)
  /-- Fewer than two bytes (R80). -/
  | truncated
  deriving DecidableEq, Repr

/-- Two bytes as one word, the first the high byte (R54). -/
def wordOfBytes (hi lo : Byte) : Word := BitVec.ofNat 16 (hi.toNat * 256 + lo.toNat)

/-- The byte of a word that lies at the lower address (R54). -/
def highByte (w : Word) : Byte := BitVec.ofNat 8 (w.toNat / 256)

/-- The byte of a word that lies at the higher address (R54). -/
def lowByte (w : Word) : Byte := BitVec.ofNat 8 w.toNat

/-- `d1`, bits 15:12, the major opcode (R81). -/
def fieldD1 (w : Word) : Nat := w.toNat / 0x1000

/-- `d2`, bits 11:8, as a register number (R81). -/
def fieldX (w : Word) : Reg := ⟨w.toNat / 0x100 % 16, Nat.mod_lt _ (by decide)⟩

/-- `d3`, bits 7:4, as a register number (R81). -/
def fieldY (w : Word) : Reg := ⟨w.toNat / 0x10 % 16, Nat.mod_lt _ (by decide)⟩

/-- `d4`, bits 3:0 (R81). -/
def fieldN (w : Word) : Fin 16 := ⟨w.toNat % 16, Nat.mod_lt _ (by decide)⟩

/-- `nn`, bits 7:0 (R81). -/
def fieldNN (w : Word) : Byte := lowByte w

/-- `nnn`, bits 11:0 (R81). -/
def fieldNNN (w : Word) : Addr12 := BitVec.ofNat 12 w.toNat

/-- Decode one word by its nibbles (R84, R85); a word of no pattern is rejected by name (R88). -/
def decodeWord (w : Word) : Except Reject Instr :=
  match fieldD1 w with
  | 0x0 =>
    match w.toNat with
    | 0x0000 => .ok .nop
    | 0x00E0 => .ok .cls
    | 0x00EE => .ok .ret
    | _ => .error (.unknownOpcode w)
  | 0x1 => .ok (.jp (fieldNNN w))
  | 0x2 => .ok (.call (fieldNNN w))
  | 0x3 => .ok (.seImm (fieldX w) (fieldNN w))
  | 0x4 => .ok (.sneImm (fieldX w) (fieldNN w))
  | 0x5 =>
    match (fieldN w).val with
    | 0x0 => .ok (.seReg (fieldX w) (fieldY w))
    | _ => .error (.unknownOpcode w)
  | 0x6 => .ok (.ldImm (fieldX w) (fieldNN w))
  | 0x7 => .ok (.addImm (fieldX w) (fieldNN w))
  | 0x8 =>
    match (fieldN w).val with
    | 0x0 => .ok (.ldReg (fieldX w) (fieldY w))
    | 0x1 => .ok (.orReg (fieldX w) (fieldY w))
    | 0x2 => .ok (.andReg (fieldX w) (fieldY w))
    | 0x3 => .ok (.xorReg (fieldX w) (fieldY w))
    | 0x4 => .ok (.addReg (fieldX w) (fieldY w))
    | 0x5 => .ok (.subReg (fieldX w) (fieldY w))
    | 0x6 => .ok (.shr (fieldX w) (fieldY w))
    | 0x7 => .ok (.subnReg (fieldX w) (fieldY w))
    | 0xE => .ok (.shl (fieldX w) (fieldY w))
    | _ => .error (.unknownOpcode w)
  | 0x9 =>
    match (fieldN w).val with
    | 0x0 => .ok (.sneReg (fieldX w) (fieldY w))
    | _ => .error (.unknownOpcode w)
  | 0xA => .ok (.ldI (fieldNNN w))
  | 0xB => .ok (.jpV0 (fieldNNN w))
  | 0xC => .ok (.rnd (fieldX w) (fieldNN w))
  | 0xD => .ok (.drw (fieldX w) (fieldY w) (fieldN w))
  | 0xE =>
    match (fieldNN w).toNat with
    | 0x9E => .ok (.skp (fieldX w))
    | 0xA1 => .ok (.sknp (fieldX w))
    | _ => .error (.unknownOpcode w)
  | 0xF =>
    match (fieldNN w).toNat with
    | 0x07 => .ok (.ldFromDt (fieldX w))
    | 0x0A => .ok (.ldKey (fieldX w))
    | 0x15 => .ok (.ldDt (fieldX w))
    | 0x18 => .ok (.ldSt (fieldX w))
    | 0x1E => .ok (.addI (fieldX w))
    | 0x29 => .ok (.ldGlyph (fieldX w))
    | 0x33 => .ok (.ldBcd (fieldX w))
    | 0x55 => .ok (.storeRegs (fieldX w))
    | 0x65 => .ok (.loadRegs (fieldX w))
    | _ => .error (.unknownOpcode w)
  | _ => .error (.unknownOpcode w)

/-- Decode the instruction at the head of a byte list: always two bytes, high byte first (R80, R89). -/
def decodeBytes : List Byte → Except Reject (Instr × List Byte)
  | hi :: lo :: rest =>
    match decodeWord (wordOfBytes hi lo) with
    | .ok i => .ok (i, rest)
    | .error e => .error e
  | _ => .error .truncated

/-- Format NNN: `d1` and a twelve-bit address (R82). -/
def formNNN (d1 : Nat) (nnn : Addr12) : Word := BitVec.ofNat 16 (d1 * 0x1000 + nnn.toNat)

/-- Format XNN: `d1`, a register and a byte (R82). -/
def formXNN (d1 : Nat) (x : Reg) (nn : Byte) : Word := BitVec.ofNat 16 (d1 * 0x1000 + x.val * 0x100 + nn.toNat)

/-- Formats XY and XYN: `d1`, two registers and `d4` (R82). -/
def formXYN (d1 : Nat) (x y : Reg) (d4 : Nat) : Word :=
  BitVec.ofNat 16 (d1 * 0x1000 + x.val * 0x100 + y.val * 0x10 + d4)

/-- Format X: `d1`, a register and a fixed low byte (R82). -/
def formX (d1 : Nat) (x : Reg) (low : Nat) : Word := BitVec.ofNat 16 (d1 * 0x1000 + x.val * 0x100 + low)

/-- The word of an instruction (R85). -/
def encode : Instr → Word
  | .nop => 0x0000
  | .cls => 0x00E0
  | .ret => 0x00EE
  | .jp nnn => formNNN 0x1 nnn
  | .call nnn => formNNN 0x2 nnn
  | .seImm x nn => formXNN 0x3 x nn
  | .sneImm x nn => formXNN 0x4 x nn
  | .seReg x y => formXYN 0x5 x y 0x0
  | .ldImm x nn => formXNN 0x6 x nn
  | .addImm x nn => formXNN 0x7 x nn
  | .ldReg x y => formXYN 0x8 x y 0x0
  | .orReg x y => formXYN 0x8 x y 0x1
  | .andReg x y => formXYN 0x8 x y 0x2
  | .xorReg x y => formXYN 0x8 x y 0x3
  | .addReg x y => formXYN 0x8 x y 0x4
  | .subReg x y => formXYN 0x8 x y 0x5
  | .shr x y => formXYN 0x8 x y 0x6
  | .subnReg x y => formXYN 0x8 x y 0x7
  | .shl x y => formXYN 0x8 x y 0xE
  | .sneReg x y => formXYN 0x9 x y 0x0
  | .ldI nnn => formNNN 0xA nnn
  | .jpV0 nnn => formNNN 0xB nnn
  | .rnd x nn => formXNN 0xC x nn
  | .drw x y n => formXYN 0xD x y n.val
  | .skp x => formX 0xE x 0x9E
  | .sknp x => formX 0xE x 0xA1
  | .ldFromDt x => formX 0xF x 0x07
  | .ldKey x => formX 0xF x 0x0A
  | .ldDt x => formX 0xF x 0x15
  | .ldSt x => formX 0xF x 0x18
  | .addI x => formX 0xF x 0x1E
  | .ldGlyph x => formX 0xF x 0x29
  | .ldBcd x => formX 0xF x 0x33
  | .storeRegs x => formX 0xF x 0x55
  | .loadRegs x => formX 0xF x 0x65

/-- The two bytes of an instruction as memory holds them (R54). -/
def encodeBytes (i : Instr) : List Byte := [highByte (encode i), lowByte (encode i)]

/-- One row of the opcode map: a word `w` is the instruction iff `w &&& mask = code` (R84, R85). -/
structure OpcodeRow where
  mask : Word
  code : Word
  deriving DecidableEq, Repr

/-- The row a word matches (R84). -/
def OpcodeRow.covers (r : OpcodeRow) (w : Word) : Bool := decide (w &&& r.mask = r.code)

/-- The opcode map, rows in the table's order, first half (R85). -/
def opcodeRowsLow : List OpcodeRow :=
  [⟨0xFFFF, 0x0000⟩, ⟨0xFFFF, 0x00E0⟩, ⟨0xFFFF, 0x00EE⟩, ⟨0xF000, 0x1000⟩, ⟨0xF000, 0x2000⟩, ⟨0xF000, 0x3000⟩,
   ⟨0xF000, 0x4000⟩, ⟨0xF00F, 0x5000⟩, ⟨0xF000, 0x6000⟩, ⟨0xF000, 0x7000⟩, ⟨0xF00F, 0x8000⟩, ⟨0xF00F, 0x8001⟩,
   ⟨0xF00F, 0x8002⟩, ⟨0xF00F, 0x8003⟩, ⟨0xF00F, 0x8004⟩, ⟨0xF00F, 0x8005⟩, ⟨0xF00F, 0x8006⟩, ⟨0xF00F, 0x8007⟩]

/-- The opcode map, second half (R85). -/
def opcodeRowsHigh : List OpcodeRow :=
  [⟨0xF00F, 0x800E⟩, ⟨0xF00F, 0x9000⟩, ⟨0xF000, 0xA000⟩, ⟨0xF000, 0xB000⟩, ⟨0xF000, 0xC000⟩, ⟨0xF000, 0xD000⟩,
   ⟨0xF0FF, 0xE09E⟩, ⟨0xF0FF, 0xE0A1⟩, ⟨0xF0FF, 0xF007⟩, ⟨0xF0FF, 0xF00A⟩, ⟨0xF0FF, 0xF015⟩, ⟨0xF0FF, 0xF018⟩,
   ⟨0xF0FF, 0xF01E⟩, ⟨0xF0FF, 0xF029⟩, ⟨0xF0FF, 0xF033⟩, ⟨0xF0FF, 0xF055⟩, ⟨0xF0FF, 0xF065⟩]

/-- The whole opcode map: 35 rows (R85). -/
def opcodeRows : List OpcodeRow := opcodeRowsLow ++ opcodeRowsHigh

/-- The row of the opcode map that an instruction stands for (R85). -/
def Instr.row : Instr → OpcodeRow
  | .nop => ⟨0xFFFF, 0x0000⟩
  | .cls => ⟨0xFFFF, 0x00E0⟩
  | .ret => ⟨0xFFFF, 0x00EE⟩
  | .jp _ => ⟨0xF000, 0x1000⟩
  | .call _ => ⟨0xF000, 0x2000⟩
  | .seImm _ _ => ⟨0xF000, 0x3000⟩
  | .sneImm _ _ => ⟨0xF000, 0x4000⟩
  | .seReg _ _ => ⟨0xF00F, 0x5000⟩
  | .ldImm _ _ => ⟨0xF000, 0x6000⟩
  | .addImm _ _ => ⟨0xF000, 0x7000⟩
  | .ldReg _ _ => ⟨0xF00F, 0x8000⟩
  | .orReg _ _ => ⟨0xF00F, 0x8001⟩
  | .andReg _ _ => ⟨0xF00F, 0x8002⟩
  | .xorReg _ _ => ⟨0xF00F, 0x8003⟩
  | .addReg _ _ => ⟨0xF00F, 0x8004⟩
  | .subReg _ _ => ⟨0xF00F, 0x8005⟩
  | .shr _ _ => ⟨0xF00F, 0x8006⟩
  | .subnReg _ _ => ⟨0xF00F, 0x8007⟩
  | .shl _ _ => ⟨0xF00F, 0x800E⟩
  | .sneReg _ _ => ⟨0xF00F, 0x9000⟩
  | .ldI _ => ⟨0xF000, 0xA000⟩
  | .jpV0 _ => ⟨0xF000, 0xB000⟩
  | .rnd _ _ => ⟨0xF000, 0xC000⟩
  | .drw _ _ _ => ⟨0xF000, 0xD000⟩
  | .skp _ => ⟨0xF0FF, 0xE09E⟩
  | .sknp _ => ⟨0xF0FF, 0xE0A1⟩
  | .ldFromDt _ => ⟨0xF0FF, 0xF007⟩
  | .ldKey _ => ⟨0xF0FF, 0xF00A⟩
  | .ldDt _ => ⟨0xF0FF, 0xF015⟩
  | .ldSt _ => ⟨0xF0FF, 0xF018⟩
  | .addI _ => ⟨0xF0FF, 0xF01E⟩
  | .ldGlyph _ => ⟨0xF0FF, 0xF029⟩
  | .ldBcd _ => ⟨0xF0FF, 0xF033⟩
  | .storeRegs _ => ⟨0xF0FF, 0xF055⟩
  | .loadRegs _ => ⟨0xF0FF, 0xF065⟩

/-- The word whose bits are the low `nbits` of `w`, the rest 0 (the opcode table's numbering: bit 0 is the word's least
significant bit). -/
def tableWord (nbits w : Nat) : Word := BitVec.ofNat 16 (w % 2 ^ nbits)

/-- What this decoder reads from an opcode-table word, laid out in memory order (high byte first). -/
def decodeTableWord (nbits w : Nat) : Option Instr :=
  match decodeBytes [highByte (tableWord nbits w), lowByte (tableWord nbits w)] with
  | .ok (i, _) => some i
  | .error _ => none

end Sys2Proof
end

