-- ==== Sys2Proof/Machine/Params.lean ====
section
/-! DEFINITION. The parameters of the hardware that the spec names and fixes by a decision of its own (R6, D1, D2, D7,
D13): a claim can name each of them. They stand here and not in `Config.lean` so that a value shown wrong can be mended. -/

namespace Sys2Proof.Config

/-- `RESET_PC`: the value of `pc` after construction and reset (R262, D1). Assumption log 2. -/
def resetPc : Word := 0x200

/-- `STACK_DEPTH`: the number of return addresses the call stack holds (R26, D2). Assumption log 3. -/
abbrev stackDepth : Nat := 16

/-- `VF_COLLISION`: the order of the two writes of a flag-writing instruction, the order of the clauses in its table row
(R143, D7). It matters only when `x = F`. Assumption log 4. -/
def vfCollision : FlagOp → WriteOrder
  | .add | .sub | .subn => .resultThenFlag
  | .shr | .shl => .flagThenResult

/-- Glyphs 0 to 7 (R53). -/
def fontLow : List Byte :=
  [0xF0, 0x90, 0x90, 0x90, 0xF0] ++ [0x20, 0x60, 0x20, 0x20, 0x70] ++
  [0xF0, 0x10, 0xF0, 0x80, 0xF0] ++ [0xF0, 0x10, 0xF0, 0x10, 0xF0] ++
  [0x90, 0x90, 0xF0, 0x10, 0x10] ++ [0xF0, 0x80, 0xF0, 0x10, 0xF0] ++
  [0xF0, 0x80, 0xF0, 0x90, 0xF0] ++ [0xF0, 0x10, 0x20, 0x40, 0x40]

/-- Glyphs 8 to F (R53). -/
def fontHigh : List Byte :=
  [0xF0, 0x90, 0xF0, 0x90, 0xF0] ++ [0xF0, 0x90, 0xF0, 0x10, 0xF0] ++
  [0xF0, 0x90, 0xF0, 0x90, 0x90] ++ [0xE0, 0x90, 0xE0, 0x90, 0xE0] ++
  [0xF0, 0x80, 0x80, 0x80, 0xF0] ++ [0xE0, 0x90, 0x90, 0x90, 0xE0] ++
  [0xF0, 0x80, 0xF0, 0x80, 0xF0] ++ [0xF0, 0x80, 0xF0, 0x80, 0x80]

/-- `FONT[0..79]`: the built-in glyphs, five bytes each, at address 0 (R52, R53, D13). Assumption log 5. -/
def font : List Byte := fontLow ++ fontHigh

end Sys2Proof.Config
end

