-- ==== Sys2Proof/Machine/Memory.lean ====
section
/-! DEFINITION. Main memory as plain data (20_memory R50 to R59): the cells that differ from the reset contents, by rising
address. An unlisted address reads as reset leaves it: the font at 0x000 to 0x04F, zero above (R34, R260). -/

namespace Sys2Proof.Machine

/-- The bytes of `mem` that differ from their reset contents. -/
abbrev Memory := List Host.Cell

/-- What an unlisted address reads as: its reset contents (R34, R260). Assumption log 18. -/
def memDefault (a : Nat) : Byte := (Config.font[a]?).getD 0

/-- The byte at an address (R59). -/
def Memory.read : Memory → Nat → Byte
  | [], a => memDefault a
  | (b, v) :: rest, a => if b = a then v else Memory.read rest a

/-- Put the cell of address `a` in front of `rest`, unless it holds what an unlisted address reads as. -/
def Memory.cons (a : Nat) (v : Byte) (rest : Memory) : Memory := if v = memDefault a then rest else (a, v) :: rest

/-- Store one byte, keeping the canonical form (R59). -/
def Memory.write : Memory → Nat → Byte → Memory
  | [], a, v => Memory.cons a v []
  | (b, w) :: rest, a, v =>
    if a < b then Memory.cons a v ((b, w) :: rest)
    else if a = b then Memory.cons a v rest
    else (b, w) :: Memory.write rest a v

/-- Store bytes at ascending addresses from `a` (R55, R58). -/
def Memory.writeList : Memory → Nat → List Byte → Memory
  | m, _, [] => m
  | m, a, v :: vs => Memory.writeList (Memory.write m a v) (a + 1) vs

/-- `n` bytes from ascending addresses (R55, R58). -/
def Memory.readList (m : Memory) (a n : Nat) : List Byte := (List.range n).map fun k => Memory.read m (a + k)

/-- The canonical form: addresses below 4096 and strictly rising, no cell equal to its reset contents. -/
def Memory.wf : Memory → Bool
  | [] => true
  | (a, v) :: rest =>
    decide (a < Config.memSize) && decide (v ≠ memDefault a) && rest.all (fun c => decide (a < c.1)) && Memory.wf rest

end Sys2Proof.Machine
end

