-- ==== Sys2Proof/Machine/State.lean ====
section
/-! DEFINITION. The state (10_state R20), the conditions an operation can return (60_exceptions R231) and the state after
reset (R34). `CoreState` is the core of R20 and nothing else; `State` is what the interface's `step` runs on, the core with
the inputs that `step` has no argument for. -/

namespace Sys2Proof.Machine

/-- The framebuffer, row by row: 32 rows of 64 cells, `true` = lit (R29, R66). Assumption log 18. -/
abbrev Fb := Vector (Vector Bool Config.screenW) Config.screenH

/-- The state of the core: exactly what R20 lists, and nothing else. No input or output of an operation is in it (R32). -/
structure CoreState where
  /-- `V0..VF` (R21). -/
  v : Vector Byte 16
  /-- The index register `I` (R24). -/
  i : Word
  /-- The program counter: the next instruction to fetch (R25). -/
  pc : Word
  /-- `stack[0..15]` (R26). -/
  stack : Vector Word Config.stackDepth
  /-- `sp`, the number of live stack entries, 0 to 16 (R26). -/
  sp : Fin (Config.stackDepth + 1)
  /-- `dt`, the delay timer (R27). -/
  dt : Byte
  /-- `st`, the sound timer (R27). -/
  st : Byte
  /-- `mem`, 4096 bytes (R28), in `Memory`'s canonical form. -/
  mem : Memory
  /-- `fb`, 64 by 32 cells (R29). -/
  fb : Fb
  /-- `key[0..15]`, `true` = pressed (R30). -/
  key : Vector Bool Config.numKeys
  deriving DecidableEq, Repr

/-- The core, and beside it the inputs of the coming operations, which the interface's `step : State → Outcome` takes from
here because it has no argument. The inputs are no part of the core (R32). Assumption log 23. -/
structure State extends CoreState where
  /-- MODEL'S OWN. The operations the host invokes next, oldest first, of which the model knows (R211, R220).
  Assumption log 6. -/
  host : List HostOp
  /-- MODEL'S OWN. What the host does once `host` is empty: anything, unless this says that it only advances (R211).
  Assumption log 6. -/
  plan : HostPlan
  /-- MODEL'S OWN. How many free choices of an operation the host has made; `Config.freeOp` is applied to it. Assumption
  log 6. -/
  picks : Nat
  /-- MODEL'S OWN. The byte on the `rnd` input while an `advance` executes; `none`: the environment's choice is free (R141),
  and between operations always `none` (R32). Assumption log 1. -/
  rnd : Option Byte
  /-- MODEL'S OWN. How many random bytes have been drawn; `Config.freeRnd` is applied to it. Assumption log 1. -/
  draws : Nat
  deriving DecidableEq, Repr

/-- The conditions of R231 with their records (R239). Each is the result of the operation that raises it; the core's state
after it is the state before it (R9, R230), so the model stops where the host may go on: safe. What the host
sees when it goes on is `hostStep` of `Machine/HostOps.lean`. Assumption log 8 and 16. -/
inductive Fault where
  /-- Raised by `load_rom` of `len` bytes, more than 3584 (R232). Safe. -/
  | outOfMemory (len : Nat)
  /-- Raised by `advance` on a word of no pattern; its record is the address and the word (R233). Safe. -/
  | unknownOpcode (pc word : Word)
  /-- Raised by `00EE` with an empty stack (R234). Safe. -/
  | stackUnderflow (pc word : Word)
  /-- Raised by `set_key` (no site) and by `Ex9E`, `ExA1` (site: `fault_pc`, `fault_word`) on a key number above 15 (R235). Safe. -/
  | invalidKey (site : Option (Word × Word)) (index : Byte)
  /-- The document's "internal defect": no operation raises it (R236). Safe. -/
  | registerIndexOutOfRange
  /-- Raised by `2nnn` with sixteen live entries (R237). Safe. -/
  | stackOverflow (pc word : Word)
  /-- Raised by the fetch (no word yet) and by `Dxyn`, `Fx33`, `Fx55`, `Fx65` on an access above 0xFFF; `addr` is the base
  of the refused access (R238). Safe. -/
  | memoryOutOfRange (pc : Word) (word : Option Word) (addr : Word)
  deriving DecidableEq, Repr

/-- Refusals of the model itself. -/
inductive Refusal where
  /-- Raised by an arm of `exec` whose instruction has no meaning yet; no arm is left that does. Safe. -/
  | notModelled (mnemonic : String)
  deriving DecidableEq, Repr

/-- The core after construction and after every `reset` (R34, R260, R261). -/
def CoreState.reset : CoreState where
  v := Vector.replicate 16 0
  i := 0
  pc := Config.resetPc
  stack := Vector.replicate Config.stackDepth 0
  sp := 0
  dt := 0
  st := 0
  mem := []
  fb := Vector.replicate Config.screenH (Vector.replicate Config.screenW false)
  key := Vector.replicate Config.numKeys false

/-- A core with no input beside it: no scripted operation, a host free to do anything, no byte on the random input, no choice
and no draw made (assumption log 1, 6). -/
def CoreState.withoutInputs (c : CoreState) : State where
  toCoreState := c
  host := []
  plan := .anything
  picks := 0
  rnd := none
  draws := 0

/-- The state after construction and after every `reset`: the core as the spec says, and no input. -/
def State.reset : State := CoreState.reset.withoutInputs

end Sys2Proof.Machine
end

