-- ==== Sys2Proof/Machine/Ops.lean ====
section
/-! DEFINITION. The named operations every meaning is written over: register and memory access, the call stack, the program
counter, and raising a condition (00_scope R8, R9; 20_memory R57; 40_cycle R101 to R103; 60_exceptions R230, R242). -/

namespace Sys2Proof.Machine

/-- What an operation answers: the committed state, or the condition it raised (R9, R212). -/
abbrev Result := Host.Outcome State Fault Refusal

/-! Plain writes, one per field. -/

/-- `pc <- a`. -/
def State.setPc (s : State) (a : Word) : State := { s with pc := a }

/-- `I <- a`. -/
def State.setI (s : State) (a : Word) : State := { s with i := a }

/-- All sixteen general registers at once. -/
def State.setV (s : State) (v : Vector Byte 16) : State := { s with v := v }

/-- `V[r] <- b` (R8, R21). -/
def State.setReg (s : State) (r : Reg) (b : Byte) : State := { s with v := s.v.set r b }

/-- The stack's slots and its depth. -/
def State.setStack (s : State) (k : Vector Word Config.stackDepth) (d : Fin (Config.stackDepth + 1)) : State :=
  { s with stack := k, sp := d }

/-- `dt <- b`. -/
def State.setDt (s : State) (b : Byte) : State := { s with dt := b }

/-- `st <- b`. -/
def State.setSt (s : State) (b : Byte) : State := { s with st := b }

/-- All of memory. -/
def State.setMem (s : State) (m : Memory) : State := { s with mem := m }

/-- The whole framebuffer. -/
def State.setFb (s : State) (f : Fb) : State := { s with fb := f }

/-- All keypad flags. -/
def State.setKeys (s : State) (k : Vector Bool Config.numKeys) : State := { s with key := k }

/-- The whole core, its inputs left as they are. -/
def State.setCore (s : State) (c : CoreState) : State := { s with toCoreState := c }

/-- The host's next operations. -/
def State.setHost (s : State) (ops : List HostOp) : State := { s with host := ops }

/-- What the host does after its script. -/
def State.setPlan (s : State) (p : HostPlan) : State := { s with plan := p }

/-- The count of operations the host chose freely. -/
def State.setPicks (s : State) (n : Nat) : State := { s with picks := n }

/-- The byte on the `rnd` input of this `advance`. -/
def State.withRnd (s : State) (r : Option Byte) : State := { s with rnd := r }

/-- The count of random bytes drawn. -/
def State.setDraws (s : State) (n : Nat) : State := { s with draws := n }

/-- The state with the host's choice of its next operation made: the oldest scripted operation taken off, or one free choice
more. The core is the same (R211). Assumption log 6. -/
def State.chosen (s : State) : State :=
  match s.host, s.plan with
  | _ :: rest, _ => s.setHost rest
  | [], .anything => s.setPicks (s.picks + 1)
  | [], .advancing => s

/-! Reads. -/

/-- `V[r]` (R8, R21). -/
def State.reg (s : State) (r : Reg) : Byte := s.v[r]

/-- The byte of memory at an address (R57). -/
def State.byte (s : State) (a : Nat) : Byte := Memory.read s.mem a

/-- `key[k]` (R30). -/
def State.pressed (s : State) (k : Reg) : Bool := s.key[k]

/-- The framebuffer cell of pixel (x, y) (R66). -/
def Fb.pixel (f : Fb) (x : Fin Config.screenW) (y : Fin Config.screenH) : Bool := f[y][x]

/-- The framebuffer cell with index `k = y * 64 + x` (R29, R66). -/
def Fb.cell (f : Fb) (k : Fin (Config.screenW * Config.screenH)) : Bool :=
  Fb.pixel f ⟨k.val % Config.screenW, Nat.mod_lt _ (by decide)⟩
    ⟨k.val / Config.screenW, Nat.div_lt_of_lt_mul k.isLt⟩

/-- The random byte of this `advance`: the one the host named, else the environment's free choice (R141). -/
def State.rndByte (s : State) : Byte :=
  match s.rnd with
  | some b => b
  | none => Config.freeRnd s.draws

/-! The program counter. -/

/-- The already-advanced program counter that every handler sees (R101). Assumption log 20. -/
def State.npc (s : State) : Word := s.pc + 2

/-- Commit an instruction that is no transfer: `pc` is at `npc` (R100). -/
def complete (s : State) : Result := .next (s.setPc s.npc)

/-- Commit a transfer of control (R113). -/
def jumpTo (a : Word) (s : State) : Result := .next (s.setPc a)

/-- Commit a conditional skip: `pc` is at `npc + 2` when the condition holds, else at `npc` (R103). -/
def skipIf (c : Bool) (s : State) : Result := .next (s.setPc (if c then s.npc + 2 else s.npc))

/-- End a cycle: the random input of this `advance` is an argument and is not kept (R32). -/
def endCycle : Result → Result
  | .next t => .next (t.withRnd none)
  | .fault c => .fault c
  | .refused r => .refused r

/-! Conditions. -/

/-- Raise a condition: the operation ends and all its writes are discarded. Nothing is saved, no mode changes and control
goes nowhere in the machine, so the condition with its record is the whole answer (R9, R102, R230, R242). Assumption log 8. -/
def raise (c : Fault) : Result := .fault c

/-- The return from a condition. There is none as an instruction: the host goes on from the state before the operation,
with its next operation (R243). -/
def State.afterCondition (s : State) : State := s.chosen

/-- Run `body` if the `n` bytes from `I` all lie in memory, else raise `MemoryOutOfRange(I)`. The whole range is tested
before anything is written; an access of no bytes is never out of range (R57, R238). Assumption
log 9. -/
def withRange (word : Word) (n : Nat) (s : State) (body : Result) : Result :=
  if n = 0 ∨ s.i.toNat + n ≤ Config.memSize then body
  else raise (.memoryOutOfRange s.pc (some word) s.i)

/-- The numeric code of a committed operation, row 0 of the table of conditions (R231, D11). -/
def successCode : Nat := 0

/-- The numeric code of a condition (R231, D11). Assumption log 16. -/
def Fault.code : Fault → Nat
  | .outOfMemory _ => 1
  | .unknownOpcode _ _ => 2
  | .stackUnderflow _ _ => 3
  | .invalidKey _ _ => 4
  | .registerIndexOutOfRange => 5
  | .stackOverflow _ _ => 6
  | .memoryOutOfRange _ _ _ => 7

/-- `fault_pc`: where the record of a condition has one (R239). -/
def Fault.faultPc : Fault → Option Word
  | .unknownOpcode pc _ | .stackUnderflow pc _ | .stackOverflow pc _ | .memoryOutOfRange pc _ _ => some pc
  | .invalidKey site _ => site.map (·.1)
  | .outOfMemory _ | .registerIndexOutOfRange => none

/-- `fault_word`: where the record of a condition has one (R239). -/
def Fault.faultWord : Fault → Option Word
  | .unknownOpcode _ w | .stackUnderflow _ w | .stackOverflow _ w => some w
  | .memoryOutOfRange _ w _ => w
  | .invalidKey site _ => site.map (·.2)
  | .outOfMemory _ | .registerIndexOutOfRange => none

/-! The call stack. -/

/-- Push a return address; `none` when the stack is full (R26, R107). -/
def State.push (s : State) (a : Word) : Option State :=
  if h : s.sp.val < Config.stackDepth then
    some (s.setStack (s.stack.set s.sp.val a) ⟨s.sp.val + 1, Nat.succ_lt_succ h⟩)
  else none

/-- Pop a return address; `none` when the stack is empty. The slot keeps its value (R26, R105). Assumption
log 14. -/
def State.pop (s : State) : Option (Word × State) :=
  if h : 0 < s.sp.val then
    some (s.stack[s.sp.val - 1]'(by omega), s.setStack s.stack ⟨s.sp.val - 1, by omega⟩)
  else none

/-! Memory blocks through `I`. -/

/-- The `n` bytes from `I` (R55, R166). -/
def State.loadBytes (s : State) (n : Nat) : List Byte := Memory.readList s.mem s.i.toNat n

/-- Store bytes from `I` upward (R55, R166); the font is not protected (R60). Assumption log 12. -/
def State.storeBytes (s : State) (bs : List Byte) : State := s.setMem (Memory.writeList s.mem s.i.toNat bs)

end Sys2Proof.Machine
end

