-- ==== Sys2Proof/Machine/Operands.lean ====
section
/-! DEFINITION. The operand forms: immediates, computed targets, key numbers, glyph addresses, register blocks, decimal
digits (30_encoding R83; 42_index_memory R162, R163, R166). -/

namespace Sys2Proof.Machine

/-- `zext_16(nnn)` (R83, R106). -/
def zextAddr (nnn : Addr12) : Word := nnn.setWidth 16

/-- The target of `Bnnn`: the exact sum, which fits sixteen bits (R108). -/
def indexedTarget (nnn : Addr12) (v0 : Byte) : Word := BitVec.ofNat 16 (nnn.toNat + v0.toNat)

/-- `I + a` modulo 65536 (R161). -/
def indexPlus (i : Word) (a : Byte) : Word := BitVec.ofNat 16 (i.toNat + a.toNat)

/-- `Vx * 5`, at most 1275, no masking (R162). -/
def glyphAddr (a : Byte) : Word := BitVec.ofNat 16 (a.toNat * 5)

/-- A register value as a key number; `none` above 15, never masked (R190). Assumption log 10. -/
def keyNumber (a : Byte) : Option Reg := if h : a.toNat < Config.numKeys then some ⟨a.toNat, h⟩ else none

/-- The lowest-numbered pressed key (R192). -/
def lowestPressed (s : State) : Option Reg := (List.finRange 16).find? s.pressed

/-- The hundreds, tens and ones of a byte, a whole byte each (R163). -/
def bcdDigits (a : Byte) : List Byte :=
  [BitVec.ofNat 8 (a.toNat / 100), BitVec.ofNat 8 (a.toNat / 10 % 10), BitVec.ofNat 8 (a.toNat % 10)]

/-- The values of `V0..Vx`, in order (R83, R164). -/
def regBlock (x : Reg) (s : State) : List Byte := ((List.finRange 16).take (x.val + 1)).map s.reg

/-- The register file after `V[k] <- mem[I+k]` for `k = 0..x` (R165). -/
def loadBlock (x : Reg) (s : State) : Vector Byte 16 :=
  Vector.ofFn fun k : Fin 16 => if k ≤ x then s.byte (s.i.toNat + k.val) else s.reg k

end Sys2Proof.Machine
end

