-- ==== Sys2Proof/Machine/Flags.lean ====
section
/-! DEFINITION. Every value an instruction writes to `VF` as a flag (10_state R23) and the order of the result and flag
writes (41_alu R143). -/

namespace Sys2Proof.Machine

/-- A flag value: 1 or 0 (R23). -/
def flagByte (c : Bool) : Byte := if c then 1 else 0

/-- Carry out of the 8-bit addition (R136). -/
def carryFlag (a b : Byte) : Byte := flagByte (decide (a.toNat + b.toNat > 255))

/-- No borrow in `a - b` (R137, R139). -/
def noBorrowFlag (a b : Byte) : Byte := flagByte (decide (a.toNat ≥ b.toNat))

/-- Bit 0, shifted out to the right (R138). -/
def lowBitFlag (a : Byte) : Byte := BitVec.ofNat 8 (a.toNat % 2)

/-- Bit 7, shifted out to the left (R140). -/
def highBitFlag (a : Byte) : Byte := BitVec.ofNat 8 (a.toNat / 128)

/-- A draw turned a lit cell off (R181). -/
def collisionFlag (c : Bool) : Byte := flagByte c

/-- Write result and flag in the configured order; with `x = F` the second write stands (R10, R143). -/
def writeResultFlag (op : FlagOp) (x : Reg) (result flag : Byte) (s : State) : State :=
  match Config.vfCollision op with
  | .resultThenFlag => (s.setReg x result).setReg VF flag
  | .flagThenResult => (s.setReg VF flag).setReg x result

end Sys2Proof.Machine
end

