-- ==== Sys2Proof/Machine/Alu.lean ====
section
/-! DEFINITION. Register loads, arithmetic, logic, shifts and random (41_alu R130 to R143). Sums and shifts are computed on
integers and narrowed to the register (R142). -/

namespace Sys2Proof.Machine

/-- `6xnn` (R130). -/
def execLdImm (x : Reg) (nn : Byte) (s : State) : Result := complete (s.setReg x nn)

/-- `7xnn`: no flag (R131). -/
def execAddImm (x : Reg) (nn : Byte) (s : State) : Result :=
  complete (s.setReg x (BitVec.ofNat 8 ((s.reg x).toNat + nn.toNat)))

/-- `8xy0` (R132). -/
def execLdReg (x y : Reg) (s : State) : Result := complete (s.setReg x (s.reg y))

/-- `8xy1`: no flag (R133). -/
def execOrReg (x y : Reg) (s : State) : Result := complete (s.setReg x (s.reg x ||| s.reg y))

/-- `8xy2`: no flag (R134). -/
def execAndReg (x y : Reg) (s : State) : Result := complete (s.setReg x (s.reg x &&& s.reg y))

/-- `8xy3`: no flag (R135). -/
def execXorReg (x y : Reg) (s : State) : Result := complete (s.setReg x (s.reg x ^^^ s.reg y))

/-- `8xy4` (R136). -/
def execAddReg (x y : Reg) (s : State) : Result :=
  complete (writeResultFlag .add x (BitVec.ofNat 8 ((s.reg x).toNat + (s.reg y).toNat)) (carryFlag (s.reg x) (s.reg y)) s)

/-- `8xy5` (R137). -/
def execSubReg (x y : Reg) (s : State) : Result :=
  complete (writeResultFlag .sub x (s.reg x - s.reg y) (noBorrowFlag (s.reg x) (s.reg y)) s)

/-- `8xy6`: `Vx` itself is shifted, `y` ignored (R86, R138). -/
def execShr (x _y : Reg) (s : State) : Result :=
  complete (writeResultFlag .shr x (BitVec.ofNat 8 ((s.reg x).toNat / 2)) (lowBitFlag (s.reg x)) s)

/-- `8xy7` (R139). -/
def execSubnReg (x y : Reg) (s : State) : Result :=
  complete (writeResultFlag .subn x (s.reg y - s.reg x) (noBorrowFlag (s.reg y) (s.reg x)) s)

/-- `8xyE`: `Vx` itself is shifted, `y` ignored (R86, R140). -/
def execShl (x _y : Reg) (s : State) : Result :=
  complete (writeResultFlag .shl x (BitVec.ofNat 8 ((s.reg x).toNat * 2)) (highBitFlag (s.reg x)) s)

/-- `Cxnn`: one byte is drawn from the `rnd` input (R141). -/
def execRnd (x : Reg) (nn : Byte) (s : State) : Result :=
  complete ((s.setReg x (s.rndByte &&& nn)).setDraws (s.draws + 1))

end Sys2Proof.Machine
end

