-- ==== Sys2Proof/Machine/Control.lean ====
section
/-! DEFINITION. No-operation and control transfer (40_cycle_and_control R104 to R112). -/

namespace Sys2Proof.Machine

/-- `0000` (R104). -/
def execNop (s : State) : Result := complete s

/-- `00EE` (R105). -/
def execRet (s : State) : Result :=
  match s.pop with
  | some (a, t) => jumpTo a t
  | none => raise (.stackUnderflow s.pc (encode .ret))

/-- `1nnn` (R106). -/
def execJp (nnn : Addr12) (s : State) : Result := jumpTo (zextAddr nnn) s

/-- `2nnn` (R107). -/
def execCall (nnn : Addr12) (s : State) : Result :=
  match s.push s.npc with
  | some t => jumpTo (zextAddr nnn) t
  | none => raise (.stackOverflow s.pc (encode (.call nnn)))

/-- `3xnn` (R109). -/
def execSeImm (x : Reg) (nn : Byte) (s : State) : Result := skipIf (s.reg x == nn) s

/-- `4xnn` (R110). -/
def execSneImm (x : Reg) (nn : Byte) (s : State) : Result := skipIf (s.reg x != nn) s

/-- `5xy0` (R111). -/
def execSeReg (x y : Reg) (s : State) : Result := skipIf (s.reg x == s.reg y) s

/-- `9xy0` (R112). -/
def execSneReg (x y : Reg) (s : State) : Result := skipIf (s.reg x != s.reg y) s

/-- `Bnnn`: the register is always `V0` (R108). -/
def execJpV0 (nnn : Addr12) (s : State) : Result := jumpTo (indexedTarget nnn (s.reg 0)) s

end Sys2Proof.Machine
end

