-- ==== Sys2Proof/Machine/Display.lean ====
section
/-! DEFINITION. Clear and draw (43_display R180 to R184). -/

namespace Sys2Proof.Machine

/-- A column, reduced modulo 64 (R66, R181). -/
def wrapX (n : Nat) : Fin Config.screenW := ⟨n % Config.screenW, Nat.mod_lt _ (by decide)⟩

/-- A row, reduced modulo 32 (R66, R181). -/
def wrapY (n : Nat) : Fin Config.screenH := ⟨n % Config.screenH, Nat.mod_lt _ (by decide)⟩

/-- The cells one sprite row toggles, leftmost first: bit 7 is column 0 (R182). -/
def spriteRow (b : Byte) (vx py : Nat) : List (Fin Config.screenW × Fin Config.screenH) :=
  ((List.range 8).filter fun col => b.getLsbD (7 - col)).map fun col => (wrapX (vx + col), wrapY py)

/-- The cells a sprite toggles, row after row downward from `vy`, each wrapping on its own (R181, R182). -/
def spriteCells : List Byte → Nat → Nat → List (Fin Config.screenW × Fin Config.screenH)
  | [], _, _ => []
  | b :: bs, vx, vy => spriteRow b vx vy ++ spriteCells bs vx (vy + 1)

/-- Toggle one cell and remember whether it was lit (R181). -/
def xorCell (acc : Fb × Bool) (c : Fin Config.screenW × Fin Config.screenH) : Fb × Bool :=
  (acc.1.set c.2 (acc.1[c.2].set c.1 (!Fb.pixel acc.1 c.1 c.2)), acc.2 || Fb.pixel acc.1 c.1 c.2)

/-- The framebuffer after a draw, and whether any cell was turned off (R181). -/
def drawCells (f : Fb) (cs : List (Fin Config.screenW × Fin Config.screenH)) : Fb × Bool := cs.foldl xorCell (f, false)

/-- The all-dark framebuffer (R180). -/
def darkFb : Fb := Vector.replicate Config.screenH (Vector.replicate Config.screenW false)

/-- `00E0` (R180). -/
def execCls (s : State) : Result := complete (s.setFb darkFb)

/-- The draw `Dxyn` makes: `n` sprite bytes from `I` at (`Vx`, `Vy`), both read before `VF` is written (R181). -/
def spriteDraw (x y : Reg) (n : Fin 16) (s : State) : Fb × Bool :=
  drawCells s.fb (spriteCells (s.loadBytes n.val) (s.reg x).toNat (s.reg y).toNat)

/-- `Dxyn` (R181). -/
def execDrw (x y : Reg) (n : Fin 16) (s : State) : Result :=
  withRange (encode (.drw x y n)) n.val s
    (complete ((s.setFb (spriteDraw x y n s).1).setReg VF (collisionFlag (spriteDraw x y n s).2)))

end Sys2Proof.Machine
end

