-- ==== Sys2Proof/Machine/Index.lean ====
section
/-! DEFINITION. Index register and memory instructions (42_index_memory R160 to R166). -/

namespace Sys2Proof.Machine

/-- `Annn` (R160). -/
def execLdI (nnn : Addr12) (s : State) : Result := complete (s.setI (zextAddr nnn))

/-- `Fx1E`: no flag (R161). -/
def execAddI (x : Reg) (s : State) : Result := complete (s.setI (indexPlus s.i (s.reg x)))

/-- `Fx29` (R162). -/
def execLdGlyph (x : Reg) (s : State) : Result := complete (s.setI (glyphAddr (s.reg x)))

/-- `Fx33` (R163). -/
def execLdBcd (x : Reg) (s : State) : Result :=
  withRange (encode (.ldBcd x)) 3 s (complete (s.storeBytes (bcdDigits (s.reg x))))

/-- `Fx55`: `I` unchanged (R164). -/
def execStoreRegs (x : Reg) (s : State) : Result :=
  withRange (encode (.storeRegs x)) (x.val + 1) s (complete (s.storeBytes (regBlock x s)))

/-- `Fx65`: `I` unchanged (R165). -/
def execLoadRegs (x : Reg) (s : State) : Result :=
  withRange (encode (.loadRegs x)) (x.val + 1) s (complete (s.setV (loadBlock x s)))

end Sys2Proof.Machine
end

