-- ==== Sys2Proof/Machine/Keypad.lean ====
section
/-! DEFINITION. Keypad and timer instructions (44_keypad_timers R190 to R196). -/

namespace Sys2Proof.Machine

/-- `Ex9E` (R190). -/
def execSkp (x : Reg) (s : State) : Result :=
  match keyNumber (s.reg x) with
  | some k => skipIf (s.pressed k) s
  | none => raise (.invalidKey (some (s.pc, encode (.skp x))) (s.reg x))

/-- `ExA1` (R191). -/
def execSknp (x : Reg) (s : State) : Result :=
  match keyNumber (s.reg x) with
  | some k => skipIf (!s.pressed k) s
  | none => raise (.invalidKey (some (s.pc, encode (.sknp x))) (s.reg x))

/-- `Fx0A`: with no key pressed `pc` goes back to this instruction and the cycle succeeds (R192, R196). -/
def execLdKey (x : Reg) (s : State) : Result :=
  match lowestPressed s with
  | some k => complete (s.setReg x (BitVec.ofNat 8 k.val))
  | none => jumpTo (s.npc - 2) s

/-- `Fx07` (R193). -/
def execLdFromDt (x : Reg) (s : State) : Result := complete (s.setReg x s.dt)

/-- `Fx15` (R194). -/
def execLdDt (x : Reg) (s : State) : Result := complete (s.setDt (s.reg x))

/-- `Fx18`: no tone (R195). -/
def execLdSt (x : Reg) (s : State) : Result := complete (s.setSt (s.reg x))

end Sys2Proof.Machine
end

