-- ==== Sys2Proof/Machine/Cycle.lean ====
section
/-! DEFINITION. The cycle: fetch, decode, execute (40_cycle_and_control R100 to R102). -/

namespace Sys2Proof.Machine

/-- The word whose two bytes start at an address, high byte first (R54). -/
def State.wordAt (s : State) (a : Nat) : Word := wordOfBytes (s.byte a) (s.byte (a + 1))

/-- `MemRead(pc, 2)`: `none` when a byte would lie above 0xFFF (R57, R100). -/
def fetch (s : State) : Option Word :=
  if s.pc.toNat + 2 ≤ Config.memSize then some (s.wordAt s.pc.toNat) else none

/-- `advance`: one whole cycle of one instruction; `rnd = none` leaves the random byte to the environment.
The first condition met in the order fetch, dispatch, execute is the one raised (R100, R241). -/
def advance (rnd : Option Byte) (s : State) : Result :=
  match fetch s with
  | none => raise (.memoryOutOfRange s.pc none s.pc)
  | some w =>
    match decodeWord w with
    | .error _ => raise (.unknownOpcode s.pc w)
    | .ok i => endCycle (exec i (s.withRnd rnd))

/-- The state with a word stored where the next step fetches: at `pc`, or at `RESET_PC` if `pc` lies outside memory; the
host that runs it is one that only advances, so no other operation comes before that fetch. Assumption log 7. -/
def placeWord (s : State) (w : Word) : State :=
  let t := (if s.pc.toNat + 2 ≤ Config.memSize then s else s.setPc Config.resetPc).setHost [] |>.setPlan .advancing
  t.setMem (Memory.writeList t.mem t.pc.toNat [highByte w, lowByte w])

end Sys2Proof.Machine
end

