-- ==== Sys2Proof/Machine/HostOps.lean ====
section
/-! DEFINITION. The host's five operations, the tone, the framebuffer view and what the host is answered
(45_host_operations R210 to R220; 60_exceptions R230, R243; 70_reset R260). -/

namespace Sys2Proof.Machine

/-- One tick of one timer: a timer at 0 stays at 0 (R216). -/
def tickDown (t : Byte) : Byte := if t.toNat = 0 then t else BitVec.ofNat 8 (t.toNat - 1)

/-- `advance_timers` (R216). -/
def opAdvanceTimers (s : State) : Result := .next ((s.setDt (tickDown s.dt)).setSt (tickDown s.st))

/-- `set_key` (R214). -/
def opSetKey (index : Byte) (pressed : Bool) (s : State) : Result :=
  match keyNumber index with
  | some k => .next (s.setKeys (s.key.set k pressed))
  | none => raise (.invalidKey none index)

/-- `load_rom`: the size is tested before anything is copied (R213). Assumption log 21. -/
def opLoadRom (bytes : List Byte) (s : State) : Result :=
  if Config.loadAddr + bytes.length > Config.memSize then raise (.outOfMemory bytes.length)
  else .next (s.setMem (Memory.writeList s.mem Config.loadAddr bytes))

/-- `reset`: the whole core; the inputs beside it go on (R260). -/
def opReset (s : State) : Result := .next (s.setCore CoreState.reset)

/-- Invoke one operation: the committed state or the condition raised (R210, R212). -/
def invoke (op : HostOp) (s : State) : Result :=
  match op with
  | .advance rnd => advance (some rnd) s
  | .advanceTimers => opAdvanceTimers s
  | .setKey index pressed => opSetKey index pressed s
  | .loadRom bytes => opLoadRom bytes s
  | .reset => opReset s

/-- The tone output of an operation: 1 exactly for the tick that takes `st` from 1 to 0 (R217, D9). Assumption
log 11. -/
def tone (op : HostOp) (s : State) : Bool :=
  match op with
  | .advanceTimers => s.st == 1
  | .advance _ | .setKey _ _ | .loadRom _ | .reset => false

/-- The host's read-only view of the framebuffer: 2048 cells, pixel (x, y) at `y * 64 + x` (R218). -/
def frameView (s : State) (k : Fin (Config.screenW * Config.screenH)) : Bool := Fb.cell s.fb k

/-- What the host is answered (R210, R212). -/
inductive Reply where
  | success (tone : Bool)
  | condition (c : Fault)
  | refusal (r : Refusal)
  deriving DecidableEq, Repr

/-- The numeric code the host is answered: 0 for success, else that of the condition (R231, D11). A refusal of the model has
none. Assumption log 16. -/
def Reply.code : Reply → Option Nat
  | .success _ => some successCode
  | .condition c => some c.code
  | .refusal _ => none

/-- The answer to an operation of this tone output and this outcome (R210, R212). -/
def replyOf (tone : Bool) : Result → Reply
  | .next _ => .success tone
  | .fault c => .condition c
  | .refused r => .refusal r

/-- The state after an operation of this outcome: after a condition, the state before it (R9, R230). -/
def stateAfter (s : State) : Result → State
  | .next t => t
  | .fault _ | .refused _ => s

/-- One operation as the host sees it: its arguments in, the state and its results out; after a condition the state is the
state before the operation, and nothing is remembered (R9, R32, R212, R230). -/
def hostStep (op : HostOp) (s : State) : State × Reply := (stateAfter s (invoke op s), replyOf (tone op s) (invoke op s))

/-- An operation as the spec gives it: a function of its arguments and of the core alone, with the new core and the results
(tone, success or a condition with its record) as its value (R9, R32, R210). `StepIsAnOperationOnTheCore` says that `step`
is this. -/
def operate (op : HostOp) (c : CoreState) : CoreState × Reply :=
  ((hostStep op c.withoutInputs).1.toCoreState, (hostStep op c.withoutInputs).2)

/-- A session: the host's operations in order, going on after every condition (R211, R243). -/
def session : List HostOp → State → State × List Reply
  | [], s => (s, [])
  | op :: ops, s =>
    let first := hostStep op s
    let rest := session ops first.1
    (rest.1, first.2 :: rest.2)

/-- The operation the host invokes next: the oldest one of its script; after the script the free choice `choose` makes, in
any order and at any rates; `none`: an `advance` whose random byte is free (R211, R220). Assumption log 6. -/
def State.choice (choose : Nat → HostOp) (s : State) : Option HostOp :=
  match s.host, s.plan with
  | op :: _, _ => some op
  | [], .anything => some (choose s.picks)
  | [], .advancing => none

/-- The chosen operation executed whole: its outcome (R9, R211). -/
def perform (op : Option HostOp) (s : State) : Result :=
  match op with
  | some op => invoke op s
  | none => advance none s

/-- The next operation of a run whose free choices are those of the infinite sequence `choose`, whatever that is (R211). -/
def operationBy (choose : Nat → HostOp) (s : State) : Result := perform (s.choice choose) s.chosen

/-- The results of that operation, the tone among them: what R32 makes an output and no state. Assumption log 6 and 11. -/
def replyBy (choose : Nat → HostOp) (s : State) : Reply :=
  replyOf (((s.choice choose).map fun op => tone op s).getD false) (operationBy choose s)

/-- One turn of such a run as the host sees it: after a condition too there is a state to go on from (R212, R243). -/
def turnBy (choose : Nat → HostOp) (s : State) : State × Reply :=
  (stateAfter s.afterCondition (operationBy choose s), replyBy choose s)

/-- The first `n` turns of a run, going on after every condition. A run never ends: every sequence of the host's operations,
finite or infinite, in any order and at any rates, is the run of some `choose` (R211). -/
def turnsBy (choose : Nat → HostOp) : Nat → State → State × List Reply
  | 0, s => (s, [])
  | n + 1, s =>
    let first := turnBy choose s
    let rest := turnsBy choose n first.1
    (rest.1, first.2 :: rest.2)

/-- The operations of the first `n` turns: those of the script, then those `choose` makes (R211). -/
def State.firstOps (choose : Nat → HostOp) (n : Nat) (s : State) : List HostOp :=
  (s.host ++ (List.range n).map fun k => choose (s.picks + k)).take n

/-- The next operation of the machine: its host's free choices are not known (R211). Assumption log 6. -/
def nextOperation (s : State) : Result := operationBy Config.freeOp s

/-- The results of the operation that the next step makes. -/
def nextReply (s : State) : Reply := replyBy Config.freeOp s

/-- The results of `n` steps, up to and including the first condition. -/
def scriptReplies : Nat → State → List Reply
  | 0, _ => []
  | n + 1, s =>
    nextReply s ::
      match nextOperation s with
      | .next t => scriptReplies n t
      | .fault _ | .refused _ => []

end Sys2Proof.Machine
end

