-- ==== Sys2Proof/Machine/Step.lean ====
section
/-! DEFINITION. One step of the machine, and where the host places an instruction to be run. -/

namespace Sys2Proof.Machine

/-- One step: the host's next operation, executed whole (R9, R211). -/
def step (s : State) : Host.Outcome State Fault Refusal := nextOperation s

/-- `s` with an opcode-table word where `step` fetches its next instruction. Assumption log 7. -/
def State.withFetchWord (s : State) (nbits w : Nat) : State := placeWord s (tableWord nbits w)

end Sys2Proof.Machine
end

