-- ==== Sys2Proof/Safety.lean ====
section
/-! DEFINITION. The terms in which claims speak of runs: the parts of the state, what an operation may change (10_state R36),
the invariant of every run, the cells a sprite covers, and the end of a run (70_reset R269). -/

namespace Sys2Proof.Machine

/-- The parts of the state a frame speaks of; the last four are the model's own fields. -/
inductive Part where
  | pc | regs | index | stack | dt | st | mem | fb | key | host | picks | rnd | draws
  deriving DecidableEq, Repr

/-- A part reads the same in two states. Memory is compared byte by byte through the model's own read. -/
def Same (p : Part) (s t : State) : Prop :=
  match p with
  | .pc => t.pc = s.pc
  | .regs => ∀ r, t.reg r = s.reg r
  | .index => t.i = s.i
  | .stack => t.stack = s.stack ∧ t.sp = s.sp
  | .dt => t.dt = s.dt
  | .st => t.st = s.st
  | .mem => ∀ a, t.byte a = s.byte a
  | .fb => t.fb = s.fb
  | .key => t.key = s.key
  | .host => t.host = s.host ∧ t.plan = s.plan
  | .picks => t.picks = s.picks
  | .rnd => t.rnd = s.rnd
  | .draws => t.draws = s.draws

/-- Every part outside the list is unchanged. -/
def OnlyChanges (ps : List Part) (s t : State) : Prop := ∀ p, p ∉ ps → Same p s t

/-- Every general register outside the list is unchanged. -/
def KeepsRegs (rs : List Reg) (s t : State) : Prop := ∀ r, r ∉ rs → t.reg r = s.reg r

/-- Every byte of memory outside `a .. a + n - 1` is unchanged. -/
def KeepsBytesOutside (a n : Nat) (s t : State) : Prop := ∀ b, b < a ∨ a + n ≤ b → t.byte b = s.byte b

/-- The byte at `b` after the `n` bytes `f 0 .. f (n - 1)` have been stored from `a` upward (R55). -/
def storedOver (s : State) (a n : Nat) (f : Nat → Byte) (b : Nat) : Byte :=
  if a ≤ b ∧ b < a + n then f (b - a) else s.byte b

/-- A number, as a word, decodes to an instruction. -/
def Encodes (code : Nat) (i : Instr) : Prop := decodeWord (BitVec.ofNat 16 code) = .ok i

/-- The writer table for instructions (R36, with R22 to R30): what each may change. `draws` counts the random bytes. -/
def mayChange : Instr → List Part
  | .nop | .jp _ | .jpV0 _ | .seImm _ _ | .sneImm _ _ | .seReg _ _ | .sneReg _ _ | .skp _ | .sknp _ => [.pc]
  | .ret | .call _ => [.pc, .stack]
  | .ldImm _ _ | .addImm _ _ | .ldReg _ _ | .orReg _ _ | .andReg _ _ | .xorReg _ _ | .addReg _ _ | .subReg _ _
  | .shr _ _ | .subnReg _ _ | .shl _ _ | .ldFromDt _ | .ldKey _ | .loadRegs _ => [.pc, .regs]
  | .rnd _ _ => [.pc, .regs, .draws]
  | .ldI _ | .addI _ | .ldGlyph _ => [.pc, .index]
  | .ldBcd _ | .storeRegs _ => [.pc, .mem]
  | .cls => [.pc, .fb]
  | .drw _ _ _ => [.pc, .regs, .fb]
  | .ldDt _ => [.pc, .dt]
  | .ldSt _ => [.pc, .st]

/-- The general registers an instruction may write: the `write` rows of the table of R22 (R22, R23). -/
def mayWriteRegs : Instr → List Reg
  | .ldImm x _ | .addImm x _ | .ldReg x _ | .orReg x _ | .andReg x _ | .xorReg x _ | .rnd x _ | .ldFromDt x | .ldKey x => [x]
  | .addReg x _ | .subReg x _ | .shr x _ | .subnReg x _ | .shl x _ => [x, VF]
  | .drw _ _ _ => [VF]
  | .loadRegs x => (List.finRange 16).filter fun k => k ≤ x
  | .nop | .cls | .ret | .jp _ | .call _ | .jpV0 _ | .seImm _ _ | .sneImm _ _ | .seReg _ _ | .sneReg _ _ | .ldI _ | .skp _
  | .sknp _ | .ldDt _ | .ldSt _ | .addI _ | .ldGlyph _ | .ldBcd _ | .storeRegs _ => []

/-- The bytes of memory an instruction stores to: their first address and their number (R163, R164); no bytes for an
instruction that stores nothing. -/
def storeRange (i : Instr) (s : State) : Nat × Nat :=
  match i with
  | .ldBcd _ => (s.i.toNat, 3)
  | .storeRegs x => (s.i.toNat, x.val + 1)
  | _ => (0, 0)

/-- The operation is an `advance` that fetches and decodes this instruction. -/
def Runs (op : HostOp) (s : State) (i : Instr) : Prop :=
  (∃ b, op = .advance b) ∧ s.pc.toNat ≤ 0xFFE ∧ decodeWord (s.wordAt s.pc.toNat) = .ok i

/-- The one condition an instruction can raise in execution, by its code; `none` for the instructions that cannot raise any
(R241; assumption log 15). -/
def executionCondition : Instr → Option Nat
  | .ret => some 3
  | .call _ => some 6
  | .skp _ | .sknp _ => some 4
  | .drw _ _ _ | .ldBcd _ | .storeRegs _ | .loadRegs _ => some 7
  | _ => none

/-- The sprite of `n` bytes at `I`, drawn at (`vx`, `vy`), has a set bit over pixel (`px`, `py`) (R181, R182). -/
def SpriteCovers (s : State) (vx vy n : Nat) (px : Fin Config.screenW) (py : Fin Config.screenH) : Prop :=
  ∃ row col, row < n ∧ col < 8 ∧ (s.byte (s.i.toNat + row)).getLsbD (7 - col) = true ∧
    px.val = (vx + col) % 64 ∧ py.val = (vy + row) % 32

/-- What every run keeps: memory in canonical form, `pc` at most 0x10FE (R25), every live return address at most 0x1000
(R67), no input of an operation kept (R32). -/
structure State.Inv (s : State) : Prop where
  mem : Memory.wf s.mem = true
  pc : s.pc.toNat ≤ 0x10FE
  rnd : s.rnd = none
  stack : ∀ k : Fin Config.stackDepth, k.val < s.sp.val → (s.stack[k]).toNat ≤ 0x1000

/-- A run is finished: `pc` points at a jump to itself (R269, D17). Assumption log 17. -/
def State.finished (s : State) : Bool := fetch s == some (BitVec.ofNat 16 (0x1000 + s.pc.toNat)) && decide (s.pc.toNat < 0x1000)

/-- A safe step: it answers a next state. -/
def SafeStep (s : State) : Prop := ∃ t, step s = .next t

/-- Every reply of a session is a success. -/
def AllSucceed (rs : List Reply) : Prop := ∀ r ∈ rs, ∃ b, r = .success b

end Sys2Proof.Machine
end

