-- ==== Sys2Proof/Certificates/Slice0/Obligations.lean ====
section
/-! DEFINITION. The statements for the provers. Each docstring names the rules of spec/ it formalises. -/

open Sys2Proof Sys2Proof.Machine

/-! Encoding. -/

/-- Every instruction, with every operand at every value, decodes from its own word and from its own two bytes (R80, R81,
R85). -/
def Obligations.DecodeInvertsEncode : Prop :=
  ∀ (i : Instr) (rest : List Byte), decodeWord (encode i) = .ok i ∧ decodeBytes (encodeBytes i ++ rest) = .ok (i, rest)

/-- A word that decodes is the word of the instruction it decodes to: no bit of it is lost (R80, R85). The ignored `y`
nibble of the two shifts, of which R86 says that all sixteen values select the same operation, comes back because the model
keeps it in its syntax (the model's choice: assumption log 19). -/
def Obligations.EncodeInvertsDecode : Prop := ∀ (w : Word) (i : Instr), decodeWord w = .ok i → encode i = w

/-- The decoder and the mask-and-match opcode map agree, and no word matches two of the 35 rows (R84). -/
def Obligations.DecoderAgreesWithOpcodeMap : Prop :=
  opcodeRows.length = 35 ∧
  (∀ w, (∃ i, decodeWord w = .ok i) ↔ ∃ r ∈ opcodeRows, w &&& r.mask = r.code) ∧
  (∀ w i, decodeWord w = .ok i → ∀ r ∈ opcodeRows, (w &&& r.mask = r.code ↔ r = i.row)) ∧
  (∀ w, (∀ r ∈ opcodeRows, w &&& r.mask ≠ r.code) → decodeWord w = .error (.unknownOpcode w))

/-- Words written out from the encodings of the spec (R85, 95_test_vectors T-DEC), one or two of each format. -/
def Obligations.SampleWordsDecode : Prop :=
  Encodes 0x00E0 .cls ∧ Encodes 0x1ABC (.jp 0xABC) ∧ Encodes 0x3A42 (.seImm 0xA 0x42) ∧ Encodes 0x8AB4 (.addReg 0xA 0xB) ∧
  Encodes 0x81F6 (.shr 1 0xF) ∧ Encodes 0xA2F0 (.ldI 0x2F0) ∧ Encodes 0xD12F (.drw 1 2 0xF) ∧ Encodes 0xE19E (.skp 1) ∧
  Encodes 0xF165 (.loadRegs 1) ∧ decodeWord 0x8AB8 = .error (.unknownOpcode 0x8AB8)

/-! The cycle. -/

/-- One cycle: a fetch outside memory, a word of no pattern, or the instruction the word decodes to, in that order; the word
is big-endian, and a cycle that commits keeps no random input (R32, R54, R100, R241; the order and the fetch condition are
the spec's decisions D20 and D5). -/
def Obligations.AdvanceIsOneCycle : Prop :=
  ∀ (s : State) (rnd : Option Byte),
    (s.pc.toNat > 0xFFE → advance rnd s = .fault (.memoryOutOfRange s.pc none s.pc)) ∧
    (s.pc.toNat ≤ 0xFFE → ∃ w : Word,
      w.toNat = (s.byte s.pc.toNat).toNat * 256 + (s.byte (s.pc.toNat + 1)).toNat ∧
      ((∀ r ∈ opcodeRows, w &&& r.mask ≠ r.code) → advance rnd s = .fault (.unknownOpcode s.pc w)) ∧
      ∀ i, decodeWord w = .ok i → advance rnd s = endCycle (exec i (s.withRnd rnd)))

/-- A step runs the decoded instruction: for a host that only advances it is `exec` of the instruction at `pc` with the random
input left free, and the input taken off at the end; an `advance`, scripted or freely chosen, is `exec` of it with its byte on
the input; any other operation, scripted or freely chosen, is invoked (script, plan and count are the model's own: assumption
log 6). -/
def Obligations.StepRunsDecodedInstruction : Prop :=
  ∀ (s : State) (i : Instr), s.pc.toNat ≤ 0xFFE → decodeWord (s.wordAt s.pc.toNat) = .ok i →
    (s.host = [] → s.plan = .advancing → step s = endCycle (exec i (s.withRnd none))) ∧
    (∀ b rest, s.host = .advance b :: rest → step s = endCycle (exec i ((s.setHost rest).withRnd (some b)))) ∧
    (∀ op rest, s.host = op :: rest → step s = invoke op (s.setHost rest)) ∧
    (s.host = [] → s.plan = .anything → step s = invoke (Config.freeOp s.picks) (s.setPicks (s.picks + 1))) ∧
    (∀ b, invoke (.advance b) (s.setPicks (s.picks + 1)) = endCycle (exec i ((s.setPicks (s.picks + 1)).withRnd (some b))))

/-- An instruction placed where `step` fetches is run by the very next step, and placing it changes only the script and
the plan, the two bytes at `pc`, and a `pc` outside memory (the model's own: assumption log 7). -/
def Obligations.PlacedInstructionRuns : Prop :=
  ∀ (s : State) (i : Instr), Memory.wf s.mem = true →
    step (s.withFetchWord 16 (encode i).toNat) = endCycle (exec i ((s.withFetchWord 16 (encode i).toNat).withRnd none)) ∧
    (s.pc.toNat ≤ 0xFFE →
      KeepsBytesOutside s.pc.toNat 2 s (s.withFetchWord 16 (encode i).toNat) ∧
      OnlyChanges [.mem, .host] s (s.withFetchWord 16 (encode i).toNat))

/-- A word of no pattern raises `UnknownOpcode` with its address and itself, changes nothing, and raises it again when the
host steps again (R233). -/
def Obligations.UnknownWordRaisesUnknownOpcode : Prop :=
  ∀ (s : State) (a b : Byte), s.pc.toNat ≤ 0xFFE →
    (∀ r ∈ opcodeRows, s.wordAt s.pc.toNat &&& r.mask ≠ r.code) →
    session [.advance a, .advance b] s =
      (s, [.condition (.unknownOpcode s.pc (s.wordAt s.pc.toNat)), .condition (.unknownOpcode s.pc (s.wordAt s.pc.toNat))])

/-! Control transfer. -/

/-- `0000` is a full-word match that only moves `pc` past itself; every other `0nnn` but `00E0` and `00EE` is unknown
(R104). -/
def Obligations.NopOnlyMovesPc : Prop :=
  (∀ w, decodeWord w = .ok .nop ↔ w = 0x0000) ∧
  (∀ w : Word, w.toNat < 0x1000 → w ≠ 0x0000 → w ≠ 0x00E0 → w ≠ 0x00EE → decodeWord w = .error (.unknownOpcode w)) ∧
  ∀ s, ∃ t, exec .nop s = .next t ∧ t.pc = s.pc + 2 ∧ OnlyChanges [.pc] s t

/-- `1nnn` jumps to `nnn`, whatever it is (R106). -/
def Obligations.JumpSetsPc : Prop :=
  ∀ (nnn : Addr12) (s : State), Encodes (0x1000 + nnn.toNat) (.jp nnn) ∧
    ∃ t, exec (.jp nnn) s = .next t ∧ t.pc.toNat = nnn.toNat ∧ OnlyChanges [.pc] s t

/-- `Bnnn` jumps to the exact sum of `nnn` and `V0` (R108). -/
def Obligations.IndexedJumpAddsV0 : Prop :=
  ∀ (nnn : Addr12) (s : State), Encodes (0xB000 + nnn.toNat) (.jpV0 nnn) ∧
    ∃ t, exec (.jpV0 nnn) s = .next t ∧ t.pc.toNat = nnn.toNat + (s.reg 0).toNat ∧ OnlyChanges [.pc] s t

/-- `2nnn` pushes the address of the next instruction and jumps; with sixteen live entries it raises `StackOverflow`
(R107; the depth and its condition are the spec's decision D2). -/
def Obligations.CallPushesNextAddress : Prop :=
  ∀ (nnn : Addr12) (s : State), Encodes (0x2000 + nnn.toNat) (.call nnn) ∧
    (s.sp.val = 16 → exec (.call nnn) s = .fault (.stackOverflow s.pc (encode (.call nnn)))) ∧
    (s.sp.val < 16 → ∃ t, exec (.call nnn) s = .next t ∧ t.pc.toNat = nnn.toNat ∧ t.sp.val = s.sp.val + 1 ∧
      (∀ k : Fin 16, t.stack[k] = if k.val = s.sp.val then s.pc + 2 else s.stack[k]) ∧ OnlyChanges [.pc, .stack] s t)

/-- `00EE` pops the top entry into `pc`, slots keep their values; on an empty stack it raises `StackUnderflow` (R105). -/
def Obligations.ReturnPopsTopEntry : Prop :=
  ∀ s : State, Encodes 0x00EE .ret ∧
    (s.sp.val = 0 → exec .ret s = .fault (.stackUnderflow s.pc 0x00EE)) ∧
    (s.sp.val > 0 → ∃ t, exec .ret s = .next t ∧ t.sp.val = s.sp.val - 1 ∧
      (∀ k : Fin 16, k.val = s.sp.val - 1 → t.pc = s.stack[k]) ∧ (∀ k : Fin 16, t.stack[k] = s.stack[k]) ∧
      OnlyChanges [.pc, .stack] s t)

/-- A call, then any code that leaves the stack as the call left it, then a return: `pc` is the instruction after the call
and the live stack is as before (R113, 95_test_vectors T7). -/
def Obligations.CallThenReturnRoundTrip : Prop :=
  ∀ (nnn : Addr12) (s t u : State), exec (.call nnn) s = .next t → u.stack = t.stack → u.sp = t.sp →
    ∃ w, exec .ret u = .next w ∧ w.pc = s.pc + 2 ∧ w.sp = s.sp ∧
      ∀ k : Fin 16, k.val < s.sp.val → w.stack[k] = s.stack[k]

/-- The four register skips: two bytes further when the comparison holds, nothing else changed; `5xyN` and `9xyN` with
`N ≠ 0` are unknown (R109 to R112). -/
def Obligations.RegisterSkipsCompare : Prop :=
  ∀ (x y : Reg) (nn : Byte) (s : State),
    Encodes (0x3000 + 0x100 * x.val + nn.toNat) (.seImm x nn) ∧ Encodes (0x4000 + 0x100 * x.val + nn.toNat) (.sneImm x nn) ∧
    Encodes (0x5000 + 0x100 * x.val + 0x10 * y.val) (.seReg x y) ∧
    Encodes (0x9000 + 0x100 * x.val + 0x10 * y.val) (.sneReg x y) ∧
    (∀ w : Word, (∃ n : Fin 16, n.val ≠ 0 ∧ (w.toNat = 0x5000 + 0x100 * x.val + 0x10 * y.val + n.val ∨
      w.toNat = 0x9000 + 0x100 * x.val + 0x10 * y.val + n.val)) → decodeWord w = .error (.unknownOpcode w)) ∧
    (∃ t, exec (.seImm x nn) s = .next t ∧ t.pc = s.pc + (if s.reg x = nn then 4 else 2) ∧ OnlyChanges [.pc] s t) ∧
    (∃ t, exec (.sneImm x nn) s = .next t ∧ t.pc = s.pc + (if s.reg x ≠ nn then 4 else 2) ∧ OnlyChanges [.pc] s t) ∧
    (∃ t, exec (.seReg x y) s = .next t ∧ t.pc = s.pc + (if s.reg x = s.reg y then 4 else 2) ∧ OnlyChanges [.pc] s t) ∧
    (∃ t, exec (.sneReg x y) s = .next t ∧ t.pc = s.pc + (if s.reg x ≠ s.reg y then 4 else 2) ∧ OnlyChanges [.pc] s t)

/-! Register operations. -/

/-- `6xnn` and `8xy0` load a register and nothing else, `VF` included when it is the one named (R130, R132). -/
def Obligations.LoadsWriteOneRegister : Prop :=
  ∀ (x y : Reg) (nn : Byte) (s : State),
    Encodes (0x6000 + 0x100 * x.val + nn.toNat) (.ldImm x nn) ∧
    Encodes (0x8000 + 0x100 * x.val + 0x10 * y.val) (.ldReg x y) ∧
    (∃ t, exec (.ldImm x nn) s = .next t ∧ t.reg x = nn ∧ t.pc = s.pc + 2 ∧ KeepsRegs [x] s t ∧
      OnlyChanges [.pc, .regs] s t) ∧
    (∃ t, exec (.ldReg x y) s = .next t ∧ t.reg x = s.reg y ∧ t.pc = s.pc + 2 ∧ KeepsRegs [x] s t ∧
      OnlyChanges [.pc, .regs] s t)

/-- `7xnn` adds modulo 256 and sets no flag (R131). -/
def Obligations.AddImmediateWrapsWithoutFlag : Prop :=
  ∀ (x : Reg) (nn : Byte) (s : State), Encodes (0x7000 + 0x100 * x.val + nn.toNat) (.addImm x nn) ∧
    ∃ t, exec (.addImm x nn) s = .next t ∧ (t.reg x).toNat = ((s.reg x).toNat + nn.toNat) % 256 ∧ t.pc = s.pc + 2 ∧
      KeepsRegs [x] s t ∧ OnlyChanges [.pc, .regs] s t

/-- `8xy1`, `8xy2`, `8xy3` are bitwise OR, AND and XOR and leave `VF` alone unless it is `Vx` (R133 to R135). -/
def Obligations.LogicIsBitwiseWithoutFlag : Prop :=
  ∀ (x y : Reg) (s : State),
    Encodes (0x8001 + 0x100 * x.val + 0x10 * y.val) (.orReg x y) ∧
    Encodes (0x8002 + 0x100 * x.val + 0x10 * y.val) (.andReg x y) ∧
    Encodes (0x8003 + 0x100 * x.val + 0x10 * y.val) (.xorReg x y) ∧
    (∃ t, exec (.orReg x y) s = .next t ∧ (∀ k, (t.reg x).getLsbD k = ((s.reg x).getLsbD k || (s.reg y).getLsbD k)) ∧
      t.pc = s.pc + 2 ∧ KeepsRegs [x] s t ∧ OnlyChanges [.pc, .regs] s t) ∧
    (∃ t, exec (.andReg x y) s = .next t ∧ (∀ k, (t.reg x).getLsbD k = ((s.reg x).getLsbD k && (s.reg y).getLsbD k)) ∧
      t.pc = s.pc + 2 ∧ KeepsRegs [x] s t ∧ OnlyChanges [.pc, .regs] s t) ∧
    (∃ t, exec (.xorReg x y) s = .next t ∧ (∀ k, (t.reg x).getLsbD k = ((s.reg x).getLsbD k ^^ (s.reg y).getLsbD k)) ∧
      t.pc = s.pc + 2 ∧ KeepsRegs [x] s t ∧ OnlyChanges [.pc, .regs] s t)

/-- `8xy4`: the sum modulo 256 and the carry; with `x = F` the carry stands (R136; the last clause is the
spec's decision D7, assumption log 4). -/
def Obligations.AddSetsCarry : Prop :=
  ∀ (x y : Reg) (s : State), Encodes (0x8004 + 0x100 * x.val + 0x10 * y.val) (.addReg x y) ∧
    ∃ t, exec (.addReg x y) s = .next t ∧
      (x ≠ VF → (t.reg x).toNat = ((s.reg x).toNat + (s.reg y).toNat) % 256) ∧
      t.reg VF = (if (s.reg x).toNat + (s.reg y).toNat > 255 then 1 else 0) ∧
      t.pc = s.pc + 2 ∧ KeepsRegs [x, VF] s t ∧ OnlyChanges [.pc, .regs] s t

/-- `8xy5` and `8xy7`: the difference modulo 256 and NOT borrow; with `x = F` the flag stands (R137, R139;
the last clause is the spec's decision D7, assumption log 4). -/
def Obligations.SubtractSetsNoBorrow : Prop :=
  ∀ (x y : Reg) (s : State),
    Encodes (0x8005 + 0x100 * x.val + 0x10 * y.val) (.subReg x y) ∧
    Encodes (0x8007 + 0x100 * x.val + 0x10 * y.val) (.subnReg x y) ∧
    (∃ t, exec (.subReg x y) s = .next t ∧
      (x ≠ VF → ((t.reg x).toNat : Int) = (((s.reg x).toNat : Int) - ((s.reg y).toNat : Int)) % 256) ∧
      t.reg VF = (if (s.reg x).toNat ≥ (s.reg y).toNat then 1 else 0) ∧
      t.pc = s.pc + 2 ∧ KeepsRegs [x, VF] s t ∧ OnlyChanges [.pc, .regs] s t) ∧
    (∃ t, exec (.subnReg x y) s = .next t ∧
      (x ≠ VF → ((t.reg x).toNat : Int) = (((s.reg y).toNat : Int) - ((s.reg x).toNat : Int)) % 256) ∧
      t.reg VF = (if (s.reg y).toNat ≥ (s.reg x).toNat then 1 else 0) ∧
      t.pc = s.pc + 2 ∧ KeepsRegs [x, VF] s t ∧ OnlyChanges [.pc, .regs] s t)

/-- `8xy6` and `8xyE` shift `Vx` by one, whatever `y` is, and put the bit shifted out in `VF`; with `x = F` the shifted value
stands (R86, R138, R140; the last clause is the spec's decision D7, assumption log 4). -/
def Obligations.ShiftsMoveOneBit : Prop :=
  ∀ (x y : Reg) (s : State),
    Encodes (0x8006 + 0x100 * x.val + 0x10 * y.val) (.shr x y) ∧
    Encodes (0x800E + 0x100 * x.val + 0x10 * y.val) (.shl x y) ∧
    (∃ t, exec (.shr x y) s = .next t ∧ (∀ k, (t.reg x).getLsbD k = (s.reg x).getLsbD (k + 1)) ∧
      (x ≠ VF → t.reg VF = (if (s.reg x).getLsbD 0 then 1 else 0)) ∧
      t.pc = s.pc + 2 ∧ KeepsRegs [x, VF] s t ∧ OnlyChanges [.pc, .regs] s t) ∧
    (∃ t, exec (.shl x y) s = .next t ∧ (t.reg x).toNat = (s.reg x).toNat * 2 % 256 ∧
      (x ≠ VF → t.reg VF = (if (s.reg x).getLsbD 7 then 1 else 0)) ∧
      t.pc = s.pc + 2 ∧ KeepsRegs [x, VF] s t ∧ OnlyChanges [.pc, .regs] s t)

/-- With `x = F` the later of the two writes stands: the flag for the sum and the differences, the result for the shifts
(R143; the order is the spec's decision D7, `Config.vfCollision`). -/
def Obligations.FlagCollisionKeepsLaterWrite : Prop :=
  ∀ (y : Reg) (s : State), ∃ t1 t2 t3 t4 t5,
    exec (.addReg VF y) s = .next t1 ∧ exec (.subReg VF y) s = .next t2 ∧ exec (.subnReg VF y) s = .next t3 ∧
    exec (.shr VF y) s = .next t4 ∧ exec (.shl VF y) s = .next t5 ∧
    t1.reg VF = (if (s.reg VF).toNat + (s.reg y).toNat > 255 then 1 else 0) ∧
    t2.reg VF = (if (s.reg VF).toNat ≥ (s.reg y).toNat then 1 else 0) ∧
    t3.reg VF = (if (s.reg y).toNat ≥ (s.reg VF).toNat then 1 else 0) ∧
    t4.reg VF = s.reg VF >>> 1 ∧ t5.reg VF = s.reg VF <<< 1

/-- `Cxnn` writes the random input ANDed with `nn`: any byte the host names, else some byte nothing constrains
(R141; that it is an input is the spec's decision D8, the unnamed byte is the model's free value, assumption log 1). -/
def Obligations.RandomIsMaskedInput : Prop :=
  ∀ (x : Reg) (nn b : Byte) (s : State), Encodes (0xC000 + 0x100 * x.val + nn.toNat) (.rnd x nn) ∧
    (∃ t, exec (.rnd x nn) (s.withRnd (some b)) = .next t ∧ t.reg x = b &&& nn ∧ t.pc = s.pc + 2 ∧
      KeepsRegs [x] s t ∧ OnlyChanges [.pc, .regs, .draws] (s.withRnd (some b)) t) ∧
    (∃ t r, exec (.rnd x nn) (s.withRnd none) = .next t ∧ t.reg x = r &&& nn ∧ t.reg x &&& ~~~nn = 0 ∧ t.pc = s.pc + 2 ∧
      KeepsRegs [x] s t ∧ OnlyChanges [.pc, .regs, .draws] (s.withRnd none) t)

/-- Only `Cxnn` reads the random input (R215): any other instruction does the same whatever byte is on it. -/
def Obligations.OnlyRandomReadsRnd : Prop :=
  ∀ (i : Instr) (s : State) (r : Option Byte), (∀ x nn, i ≠ .rnd x nn) →
    (∀ t, exec i s = .next t → exec i (s.withRnd r) = .next (t.withRnd r)) ∧
    (∀ c, exec i s = .fault c → exec i (s.withRnd r) = .fault c)

/-! Index register and memory. -/

/-- `Annn` and `Fx1E` set `I`: to the zero-extended address, to the sum modulo 65536; no flag (R160, R161). -/
def Obligations.IndexLoadsSetI : Prop :=
  ∀ (nnn : Addr12) (x : Reg) (s : State),
    Encodes (0xA000 + nnn.toNat) (.ldI nnn) ∧ Encodes (0xF01E + 0x100 * x.val) (.addI x) ∧
    (∃ t, exec (.ldI nnn) s = .next t ∧ t.i.toNat = nnn.toNat ∧ t.pc = s.pc + 2 ∧ OnlyChanges [.pc, .index] s t) ∧
    (∃ t, exec (.addI x) s = .next t ∧ t.i.toNat = (s.i.toNat + (s.reg x).toNat) % 65536 ∧ t.pc = s.pc + 2 ∧
      OnlyChanges [.pc, .index] s t)

/-- `Fx29` sets `I` to five times the whole of `Vx`, never masked (R162; above 15 the spec marks this as derived: "from the
formula Vx * 5, which the document states without restriction"). -/
def Obligations.GlyphAddressIsFiveTimesVx : Prop :=
  ∀ (x : Reg) (s : State), Encodes (0xF029 + 0x100 * x.val) (.ldGlyph x) ∧
    ∃ t, exec (.ldGlyph x) s = .next t ∧ t.i.toNat = (s.reg x).toNat * 5 ∧ t.pc = s.pc + 2 ∧ OnlyChanges [.pc, .index] s t

/-- `Fx33` stores the three decimal digits at `I`, `I+1`, `I+2`, or raises `MemoryOutOfRange` and stores none (R163; the
condition and its leaving memory alone are the spec's decisions D4 and D5). -/
def Obligations.BcdStoresDigits : Prop :=
  ∀ (x : Reg) (s : State), Memory.wf s.mem = true → Encodes (0xF033 + 0x100 * x.val) (.ldBcd x) ∧
    (s.i.toNat > 0xFFD → exec (.ldBcd x) s = .fault (.memoryOutOfRange s.pc (some (encode (.ldBcd x))) s.i)) ∧
    (s.i.toNat ≤ 0xFFD → ∃ t, exec (.ldBcd x) s = .next t ∧
      (t.byte s.i.toNat).toNat = (s.reg x).toNat / 100 ∧
      (t.byte (s.i.toNat + 1)).toNat = (s.reg x).toNat / 10 % 10 ∧
      (t.byte (s.i.toNat + 2)).toNat = (s.reg x).toNat % 10 ∧
      KeepsBytesOutside s.i.toNat 3 s t ∧ t.pc = s.pc + 2 ∧ OnlyChanges [.pc, .mem] s t)

/-- `Fx55` stores `V0..Vx` at `I` upward and leaves `I` and the registers, or raises `MemoryOutOfRange` and stores nothing
(R164; the condition is the spec's decisions D4 and D5, the unchanged `I` its inference from the table). -/
def Obligations.StoreWritesRegisterBlock : Prop :=
  ∀ (x : Reg) (s : State), Memory.wf s.mem = true → Encodes (0xF055 + 0x100 * x.val) (.storeRegs x) ∧
    (s.i.toNat + x.val > 0xFFF →
      exec (.storeRegs x) s = .fault (.memoryOutOfRange s.pc (some (encode (.storeRegs x))) s.i)) ∧
    (s.i.toNat + x.val ≤ 0xFFF → ∃ t, exec (.storeRegs x) s = .next t ∧
      (∀ k : Reg, k ≤ x → t.byte (s.i.toNat + k.val) = s.reg k) ∧
      KeepsBytesOutside s.i.toNat (x.val + 1) s t ∧ t.pc = s.pc + 2 ∧ OnlyChanges [.pc, .mem] s t)

/-- `Fx65` loads `V0..Vx` from `I` upward and leaves `I`, memory and the registers above `Vx`, or raises
`MemoryOutOfRange` and loads nothing (R165; the condition is the spec's decisions D4 and D5, the unchanged `I` its
inference). -/
def Obligations.LoadReadsRegisterBlock : Prop :=
  ∀ (x : Reg) (s : State), Encodes (0xF065 + 0x100 * x.val) (.loadRegs x) ∧
    (s.i.toNat + x.val > 0xFFF →
      exec (.loadRegs x) s = .fault (.memoryOutOfRange s.pc (some (encode (.loadRegs x))) s.i)) ∧
    (s.i.toNat + x.val ≤ 0xFFF → ∃ t, exec (.loadRegs x) s = .next t ∧
      (∀ k : Reg, k ≤ x → t.reg k = s.byte (s.i.toNat + k.val)) ∧ (∀ k : Reg, x < k → t.reg k = s.reg k) ∧
      t.pc = s.pc + 2 ∧ OnlyChanges [.pc, .regs] s t)

/-- `Fx65` undoes `Fx55`: after a store, a load with the same `x` and `I` from the stored memory restores `V0..Vx`, whatever
the registers hold then (R165). -/
def Obligations.LoadRestoresStoredBlock : Prop :=
  ∀ (x : Reg) (s t u : State), Memory.wf s.mem = true → exec (.storeRegs x) s = .next t → u.mem = t.mem → u.i = s.i →
    ∃ w, exec (.loadRegs x) u = .next w ∧ ∀ k : Reg, k ≤ x → w.reg k = s.reg k

/-- A store is seen by the very next fetch: after `Fx55`, `Fx33` or `load_rom` the word fetched next is made of the two bytes at
the new `pc`, each the one just stored if it lies in the stored range and else the old one, the lower one as the high byte
(R54, R55, R64; the spec marks R64 as derived from R50 and R61). -/
def Obligations.FetchSeesStoredBytes : Prop :=
  ∀ s t : State, Memory.wf s.mem = true → t.pc.toNat ≤ 0xFFE →
    (∀ x, exec (.storeRegs x) s = .next t → ∀ b, b = storedOver s s.i.toNat (x.val + 1) (fun k => (s.v[k]?).getD 0) →
      fetch t = some (wordOfBytes (b t.pc.toNat) (b (t.pc.toNat + 1)))) ∧
    (∀ x, exec (.ldBcd x) s = .next t → ∀ b, b = storedOver s s.i.toNat 3 (fun k => BitVec.ofNat 8
        (if k = 0 then (s.reg x).toNat / 100 else if k = 1 then (s.reg x).toNat / 10 % 10 else (s.reg x).toNat % 10)) →
      fetch t = some (wordOfBytes (b t.pc.toNat) (b (t.pc.toNat + 1)))) ∧
    (∀ bytes, invoke (.loadRom bytes) s = .next t → ∀ b, b = storedOver s 0x200 bytes.length (fun k => (bytes[k]?).getD 0) →
      fetch t = some (wordOfBytes (b t.pc.toNat) (b (t.pc.toNat + 1))))

/-! Framebuffer. -/

/-- `00E0` makes every cell dark and writes no flag (R180). -/
def Obligations.ClearDarkensEveryCell : Prop :=
  Encodes 0x00E0 .cls ∧ ∀ s, ∃ t, exec .cls s = .next t ∧ (∀ k, frameView t k = false) ∧ t.pc = s.pc + 2 ∧
    OnlyChanges [.pc, .fb] s t

/-- `Dxyn`: every pixel the sprite covers is toggled and no other, and the host's view shows pixel (x, y) as cell
`y * 64 + x`; `VF` is 1 exactly when a covered cell was lit; an access
above 0xFFF raises `MemoryOutOfRange` and draws nothing; no rows never fault (R66, R181, R182, R218; the condition is the spec's
decisions D4 and D5, the case of no rows its inference). -/
def Obligations.DrawTogglesCoveredCells : Prop :=
  ∀ (x y : Reg) (n : Fin 16) (s : State),
    Encodes (0xD000 + 0x100 * x.val + 0x10 * y.val + n.val) (.drw x y n) ∧
    (n.val > 0 ∧ s.i.toNat + n.val - 1 > 0xFFF →
      exec (.drw x y n) s = .fault (.memoryOutOfRange s.pc (some (encode (.drw x y n))) s.i)) ∧
    (n.val = 0 ∨ s.i.toNat + n.val - 1 ≤ 0xFFF → ∃ t, exec (.drw x y n) s = .next t ∧
      (∀ px py, SpriteCovers s (s.reg x).toNat (s.reg y).toNat n.val px py →
        Fb.pixel t.fb px py = !Fb.pixel s.fb px py) ∧
      (∀ px py, ¬ SpriteCovers s (s.reg x).toNat (s.reg y).toNat n.val px py →
        Fb.pixel t.fb px py = Fb.pixel s.fb px py) ∧
      (∀ (px : Fin 64) (py : Fin 32) (k : Fin (64 * 32)), k.val = py.val * 64 + px.val →
        frameView t k = Fb.pixel t.fb px py) ∧
      (t.reg VF = 0 ∨ t.reg VF = 1) ∧
      (t.reg VF = 1 ↔ ∃ px py, SpriteCovers s (s.reg x).toNat (s.reg y).toNat n.val px py ∧ Fb.pixel s.fb px py = true) ∧
      t.pc = s.pc + 2 ∧ KeepsRegs [VF] s t ∧ OnlyChanges [.pc, .regs, .fb] s t)

/-- Two identical draws restore the framebuffer; the second sets `VF` exactly when the sprite covers a cell that is lit after
the first, and so always when the cells under a sprite with a set bit were dark
(R183 a; the general form is the spec's inference from R181). -/
def Obligations.SecondDrawRestoresFramebuffer : Prop :=
  ∀ (x y : Reg) (n : Fin 16) (s t : State), exec (.drw x y n) s = .next t → t.reg x = s.reg x → t.reg y = s.reg y →
    ∃ u, exec (.drw x y n) t = .next u ∧ u.fb = s.fb ∧
      (u.reg VF = 1 ↔ ∃ px py, SpriteCovers s (s.reg x).toNat (s.reg y).toNat n.val px py ∧ Fb.pixel t.fb px py = true) ∧
      ((∃ px py, SpriteCovers s (s.reg x).toNat (s.reg y).toNat n.val px py) →
        (∀ px py, SpriteCovers s (s.reg x).toNat (s.reg y).toNat n.val px py → Fb.pixel s.fb px py = false) →
        u.reg VF = 1)

/-! Keypad and timers. -/

/-- `Ex9E` and `ExA1` skip on the key numbered `Vx` being down or up; above 15 they raise `InvalidKey`, without masking
(R190, R191; the condition is the spec's decision D6). -/
def Obligations.KeySkipsReadOneFlag : Prop :=
  ∀ (x : Reg) (s : State), Encodes (0xE09E + 0x100 * x.val) (.skp x) ∧ Encodes (0xE0A1 + 0x100 * x.val) (.sknp x) ∧
    ((s.reg x).toNat > 15 → exec (.skp x) s = .fault (.invalidKey (some (s.pc, encode (.skp x))) (s.reg x)) ∧
      exec (.sknp x) s = .fault (.invalidKey (some (s.pc, encode (.sknp x))) (s.reg x))) ∧
    (∀ k : Reg, (s.reg x).toNat = k.val →
      (∃ t, exec (.skp x) s = .next t ∧ t.pc = s.pc + (if s.pressed k = true then 4 else 2) ∧ OnlyChanges [.pc] s t) ∧
      (∃ t, exec (.sknp x) s = .next t ∧ t.pc = s.pc + (if s.pressed k = false then 4 else 2) ∧ OnlyChanges [.pc] s t))

/-- `Fx0A`: with no key down the cycle succeeds and changes nothing, `pc` included; else `Vx` is the lowest pressed key
(R192). -/
def Obligations.WaitKeyTakesLowestPressed : Prop :=
  ∀ (x : Reg) (s : State), Encodes (0xF00A + 0x100 * x.val) (.ldKey x) ∧
    ((∀ k, s.pressed k = false) → ∃ t, exec (.ldKey x) s = .next t ∧ OnlyChanges [] s t) ∧
    (∀ m : Reg, s.pressed m = true → (∀ k, k < m → s.pressed k = false) →
      ∃ t, exec (.ldKey x) s = .next t ∧ (t.reg x).toNat = m.val ∧ t.pc = s.pc + 2 ∧ KeepsRegs [x] s t ∧
        OnlyChanges [.pc, .regs] s t)

/-- `Fx07`, `Fx15`, `Fx18` move a byte between a register and a timer; no tone comes with any of them (R193 to R195). -/
def Obligations.TimerMovesCopyOneByte : Prop :=
  ∀ (x : Reg) (s : State), Encodes (0xF007 + 0x100 * x.val) (.ldFromDt x) ∧ Encodes (0xF015 + 0x100 * x.val) (.ldDt x) ∧
    Encodes (0xF018 + 0x100 * x.val) (.ldSt x) ∧ (∀ b, tone (.advance b) s = false) ∧
    (∃ t, exec (.ldFromDt x) s = .next t ∧ t.reg x = s.dt ∧ t.pc = s.pc + 2 ∧ KeepsRegs [x] s t ∧
      OnlyChanges [.pc, .regs] s t) ∧
    (∃ t, exec (.ldDt x) s = .next t ∧ t.dt = s.reg x ∧ t.pc = s.pc + 2 ∧ OnlyChanges [.pc, .dt] s t) ∧
    (∃ t, exec (.ldSt x) s = .next t ∧ t.st = s.reg x ∧ t.pc = s.pc + 2 ∧ OnlyChanges [.pc, .st] s t)

/-! Host operations. -/

/-- `advance_timers` lowers each timer by 1 unless it is 0, cannot fail, touches nothing else, and gives the tone exactly when
`st` was 1 (R216, R217; the tone as a result bit is the spec's decision D9). -/
def Obligations.TickLowersBothTimers : Prop :=
  ∀ s : State, ∃ t, hostStep .advanceTimers s = (t, .success (decide (s.st.toNat = 1))) ∧
    t.dt.toNat = s.dt.toNat - 1 ∧ t.st.toNat = s.st.toNat - 1 ∧ OnlyChanges [.dt, .st] s t

/-- `N` ticks lower a timer from `T` to `max(0, T - N)`, and the one tone comes with the tick that takes `st` to 0 (R216,
R217, 95_test_vectors T9; the tone as a result bit is the spec's decision D9). -/
def Obligations.TicksCountDownToZero : Prop :=
  ∀ (n : Nat) (s : State), ∃ t rs, session (List.replicate n .advanceTimers) s = (t, rs) ∧
    t.dt.toNat = s.dt.toNat - n ∧ t.st.toNat = s.st.toNat - n ∧ OnlyChanges [.dt, .st] s t ∧
    rs = (List.range n).map fun k => .success (decide (k + 1 = s.st.toNat))

/-- `set_key` sets the one flag to the given value, or raises `InvalidKey` above 15 (R214; the eight-bit index is
the spec's decision D12). -/
def Obligations.SetKeySetsOneFlag : Prop :=
  ∀ (index : Byte) (pressed : Bool) (s : State),
    (index.toNat > 15 → invoke (.setKey index pressed) s = .fault (.invalidKey none index)) ∧
    (∀ k : Reg, index.toNat = k.val → ∃ t, invoke (.setKey index pressed) s = .next t ∧ t.pressed k = pressed ∧
      (∀ j, j ≠ k → t.pressed j = s.pressed j) ∧ OnlyChanges [.key] s t)

/-- `load_rom` copies the bytes to 0x200 upward and touches nothing else, or raises `OutOfMemory` and copies none
(R213; that nothing else is touched is the spec's inference, and when it may be called its decision D15). -/
def Obligations.LoadRomCopiesBytes : Prop :=
  ∀ (bytes : List Byte) (s : State), Memory.wf s.mem = true →
    (bytes.length > 3584 → invoke (.loadRom bytes) s = .fault (.outOfMemory bytes.length)) ∧
    (bytes.length ≤ 3584 → ∃ t, invoke (.loadRom bytes) s = .next t ∧
      (∀ k b, bytes[k]? = some b → t.byte (0x200 + k) = b) ∧ KeepsBytesOutside 0x200 bytes.length s t ∧
      OnlyChanges [.mem] s t)

/-- `reset` from any state, and power-on: font in place, all else zero or dark or up, `pc` at `RESET_PC`; it does not depend on
the state before and gives no tone (R260, R261; 0x200 and the font bytes are the spec's decisions D1 and D13). -/
def Obligations.ResetRestoresPowerOnState : Prop :=
  ∀ s : State, ∃ t, hostStep .reset s = (t, .success false) ∧
    (∀ p, p ∉ [Part.host, Part.picks, Part.rnd, Part.draws] → Same p State.reset t) ∧
    ((∀ r, State.reset.reg r = 0) ∧ State.reset.i = 0 ∧ State.reset.pc = 0x200 ∧ State.reset.sp = 0 ∧
      (∀ k : Fin 16, State.reset.stack[k] = 0) ∧ State.reset.dt = 0 ∧ State.reset.st = 0 ∧
      (∀ a, a < 80 → Config.font[a]? = some (State.reset.byte a)) ∧ (∀ a, 80 ≤ a → State.reset.byte a = 0) ∧
      (∀ k, frameView State.reset k = false) ∧ (∀ k, State.reset.pressed k = false))

/-- The power-on sequence: after `reset` and `load_rom`, `pc` is at the first byte of the program (R263; the entry point is
the spec's decision D1, assumption log 2). -/
def Obligations.BootPlacesProgramAtPc : Prop :=
  ∀ (bytes : List Byte) (s : State), bytes.length ≤ 3584 →
    ∃ t, session [.reset, .loadRom bytes] s = (t, [.success false, .success false]) ∧ t.pc = 0x200 ∧
      (∀ k b, bytes[k]? = some b → t.byte (t.pc.toNat + k) = b) ∧
      (∀ a, 80 ≤ a → a < 0x200 ∨ 0x200 + bytes.length ≤ a → t.byte a = 0)

/-! Conditions. -/

/-- An operation that returns a condition has changed nothing, and the later operations answer as if it had not been
invoked (R9, R212, R230; for the conditions the document does not speak of this is the spec's decision D4). -/
def Obligations.ConditionLeavesStateUnchanged : Prop :=
  ∀ (op : HostOp) (ops : List HostOp) (s t : State) (c : Fault), hostStep op s = (t, .condition c) →
    t = s ∧ session (op :: ops) s = ((session ops s).1, .condition c :: (session ops s).2)

/-- The conditions of execution: an instruction raises none but the one R241 gives it, and the other 27 always complete.
Each record has `fault_pc` and `fault_word` (R239; codes and records are the spec's decisions D11 and D16; R241 writes 26
for the other 27, assumption log 15). -/
def Obligations.EachInstructionHasOneCondition : Prop :=
  ∀ (i : Instr) (s : State),
    (∀ c, exec i s = .fault c → executionCondition i = some c.code ∧ c.faultPc = some s.pc ∧
      c.faultWord = some (encode i)) ∧
    (executionCondition i = none → ∃ t, exec i s = .next t)

/-- The code an operation answers tells exactly what happened: 0 that it committed, 1 to 7 the cause the table of conditions
gives (R231; the codes are the spec's decision D11, the causes of 4, 6 and 7 its decisions D6, D2 and D5; assumption log 16,
10, 3, 9). -/
def Obligations.ReplyCodeTellsTheCause : Prop :=
  ∀ (op : HostOp) (s : State) (code : Option Nat), (hostStep op s).2.code = code →
    code ≠ none ∧
    (code = some 0 ↔ ∃ t, invoke op s = .next t) ∧
    (code = some 1 ↔ ∃ bytes, op = .loadRom bytes ∧ 0x200 + bytes.length > 4096) ∧
    (code = some 2 ↔ (∃ b, op = .advance b) ∧ s.pc.toNat ≤ 0xFFE ∧
      ∀ r ∈ opcodeRows, s.wordAt s.pc.toNat &&& r.mask ≠ r.code) ∧
    (code = some 3 ↔ Runs op s .ret ∧ s.sp.val = 0) ∧
    (code = some 4 ↔ (∃ index pressed, op = .setKey index pressed ∧ index.toNat > 15) ∨
      ∃ x, (Runs op s (.skp x) ∨ Runs op s (.sknp x)) ∧ (s.reg x).toNat > 15) ∧
    code ≠ some 5 ∧
    (code = some 6 ↔ ∃ nnn, Runs op s (.call nnn) ∧ s.sp.val = 16) ∧
    (code = some 7 ↔ ((∃ b, op = .advance b) ∧ s.pc.toNat > 0xFFE) ∨
      (∃ x y n, Runs op s (.drw x y n) ∧ n.val > 0 ∧ s.i.toNat + n.val - 1 > 0xFFF) ∨
      (∃ x, Runs op s (.ldBcd x) ∧ s.i.toNat + 2 > 0xFFF) ∨
      ∃ x, (Runs op s (.storeRegs x) ∨ Runs op s (.loadRegs x)) ∧ s.i.toNat + x.val > 0xFFF)

/-- `RegisterIndexOutOfRange` is never raised, and no step is refused (R236). -/
def Obligations.RegisterIndexNeverOutOfRange : Prop :=
  ∀ s : State, step s ≠ .fault .registerIndexOutOfRange ∧ ∀ r, step s ≠ .refused r

/-! Rules of the whole machine. -/

/-- The writer table for instructions: whatever an instruction does, it changes only the parts its row allows, only the
general registers its rule names, only the bytes of memory it stores to (three or `x + 1` from `I`), and only the stack slot
a call fills; no instruction changes the keypad, and only `00E0` and `Dxyn` change the framebuffer (R22, R23, R26, R29, R30,
R36). -/
def Obligations.InstructionsKeepWriterTable : Prop :=
  ∀ (i : Instr) (s t : State), exec i s = .next t →
    OnlyChanges (mayChange i) s t ∧ KeepsRegs (mayWriteRegs i) s t ∧
    KeepsBytesOutside (storeRange i s).1 (storeRange i s).2 s t ∧
    (∀ k : Fin 16, t.stack[k] ≠ s.stack[k] → (∃ nnn, i = .call nnn) ∧ k.val = s.sp.val) ∧
    t.key = s.key ∧ (t.fb ≠ s.fb → i = .cls ∨ ∃ x y n, i = .drw x y n)

/-- The writer table of all operations: what each may write, an `advance` by the instruction it runs; no `advance` writes the
keypad (R36). That an operation that returns a condition writes nothing is in general the spec's decision D4 (assumption log
8); that every operation keeps the script, the plan and the count of choices, and `reset` the count of draws, is the model's
choice (assumption log 6 and 1). -/
def Obligations.OperationsKeepWriterTable : Prop :=
  ∀ (op : HostOp) (s t : State),
    (∀ c, hostStep op s = (t, .condition c) → t = s) ∧
    (∀ b, hostStep op s = (t, .success b) → Same .host s t ∧ Same .picks s t ∧
      match op with
      | .advance _ => Same .key s t ∧ ∃ i, decodeWord (s.wordAt s.pc.toNat) = .ok i ∧ OnlyChanges (.rnd :: mayChange i) s t ∧
          KeepsRegs (mayWriteRegs i) s t ∧ KeepsBytesOutside (storeRange i s).1 (storeRange i s).2 s t
      | .advanceTimers => OnlyChanges [.dt, .st] s t
      | .setKey index _ => OnlyChanges [.key] s t ∧ ∀ k, k.val ≠ index.toNat → t.pressed k = s.pressed k
      | .loadRom bytes => OnlyChanges [.mem] s t ∧ KeepsBytesOutside 0x200 bytes.length s t
      | .reset => ∀ p ∈ [Part.rnd, Part.draws], Same p s t)

/-- Every step keeps memory canonical, `pc` at most 0x10FE, every live return address at most 0x1000 and no input kept (R32;
the bounds are the spec's own inferences in R25 and R67; the canonical form is the model's). -/
def Obligations.StepKeepsInvariant : Prop := ∀ s t : State, s.Inv → step s = .next t → t.Inv

/-- The invariant holds at reset. -/
def Obligations.ResetHasInvariant : Prop := State.reset.Inv

/-- Whatever operations the host invokes from reset, conditions among them, the invariant holds after them (R211). -/
def Obligations.EverySessionKeepsInvariant : Prop := ∀ ops : List HostOp, (session ops State.reset).1.Inv

/-- Whatever infinite sequence of operations the host chooses, and whatever its script and plan, every turn of the run keeps
the invariant, also past conditions (R211, R212; choices as a sequence: assumption log 6). -/
def Obligations.EveryRunKeepsInvariant : Prop :=
  ∀ (choose : Nat → HostOp) (n : Nat) (s : State), s.Inv → (turnsBy choose n s).1.Inv

/-- The host's choice of its next operation and of its arguments is free at every step: for every infinite sequence of
operations, in any order and at any rates, the turns of the run that makes those choices do to the core and answer exactly what
the session of its operations does and answers, one operation after the other, past every condition; and the steps of the
machine are the turns of a run whose choices nothing is known of (R9, R211, R212; the sequence as the free value
`Config.freeOp` of a count is the model's: assumption log 6). -/
def Obligations.EveryHostSequenceIsARun : Prop :=
  (∀ (choose : Nat → HostOp) (n : Nat) (s : State), s.plan = .anything →
    (s.firstOps choose n).length = n ∧
    (turnsBy choose n s).1.toCoreState = (session (s.firstOps choose n) s).1.toCoreState ∧
    (turnsBy choose n s).2 = (session (s.firstOps choose n) s).2) ∧
  (∀ (s : State) (ops : Nat → HostOp), s.host = [] → ∃ choose, ∀ n, s.firstOps choose n = (List.range n).map ops) ∧
  ∀ (n : Nat) (s t : State), Host.Core.run Sys2Proof.core n s = .next t → (turnsBy Config.freeOp n s).1 = t

/-- What an operation does to the core and what it answers depend on its arguments and the core alone: on no script, no plan, no
random byte left on the input and no count of draws (R20, R32, R33; `rnd` as an input and `tone` as a result are the spec's
decisions D8 and D9). -/
def Obligations.OperationDependsOnArgumentsAndCore : Prop :=
  ∀ (op : HostOp) (s : State), ((hostStep op s).1.toCoreState, (hostStep op s).2) = operate op s.toCoreState

/-- Every step is one of the five operations, with its arguments, on the core: the one next on the script, after it the host's
free choice, or, for a host that only advances, an `advance` with some byte. The core after the step is the core after the
operation, and the results that go with the step, the tone among them, are the operation's (R32, R211; script, plan and
count beside the core are the model's own, assumption log 6 and 23). -/
def Obligations.StepIsAnOperationOnTheCore : Prop :=
  ∀ s : State, ∃ op : HostOp,
    (∀ o rest, s.host = o :: rest → op = o) ∧ (s.host = [] → s.plan = .anything → op = Config.freeOp s.picks) ∧
    (s.host = [] → s.plan = .advancing → ∃ b, op = .advance b) ∧
    nextReply s = (operate op s.toCoreState).2 ∧
    (∀ t, step s = .next t → t.toCoreState = (operate op s.toCoreState).1 ∧ t.host = s.host.tail ∧
      t.plan = s.plan) ∧
    (∀ c, step s = .fault c → operate op s.toCoreState = (s.toCoreState, .condition c))

/-- Running the host's script step by step is the session the host sees, in its states and in its answers with the tone among
them, as long as no operation returns a condition (R32, R211;
the script is the model's own: assumption log 6). -/
def Obligations.StepsRunTheHostSession : Prop :=
  ∀ (ops : List HostOp) (s t : State) (rs : List Reply), s.host = [] → session ops s = (t, rs) → AllSucceed rs →
    Host.Core.run Sys2Proof.core ops.length (s.setHost ops) = .next t ∧ scriptReplies ops.length (s.setHost ops) = rs

/-- A jump to itself is a fixed point: for a host that only advances every later `advance` succeeds and
leaves all the spec's state as it is (R106, R269; that a run ends there is the spec's convention D17). -/
def Obligations.FinishedRunStaysFinished : Prop :=
  ∀ (s : State) (n : Nat), s.finished = true → s.host = [] → s.plan = .advancing →
    ∃ t, Host.Core.run Sys2Proof.core n s = .next t ∧ t.finished = true ∧ OnlyChanges [.rnd] s t
end

