-- ==== Sys2Proof/Laws/Decode.lean ====
section
/-! SUPPORT. The fields of each encoding format, and the byte order of a word: what the decoder's helpers give back. -/

namespace Sys2Proof

/-- The two bytes of a word, put together again (R54). -/
@[simp] theorem wordOfBytes_split (w : Word) : wordOfBytes (highByte w) (lowByte w) = w := by
  have := w.isLt
  apply BitVec.eq_of_toNat_eq
  simp only [wordOfBytes, highByte, lowByte, BitVec.toNat_ofNat]; omega

theorem wordOfBytes_toNat (hi lo : Byte) : (wordOfBytes hi lo).toNat = hi.toNat * 256 + lo.toNat := by
  have := hi.isLt; have := lo.isLt
  simp only [wordOfBytes, BitVec.toNat_ofNat]; omega

/-! Format NNN. -/

theorem fieldD1_formNNN {d : Nat} (hd : d < 16) (nnn : Addr12) : fieldD1 (formNNN d nnn) = d := by
  have := nnn.isLt
  simp only [fieldD1, formNNN, BitVec.toNat_ofNat]; omega

theorem fieldNNN_formNNN {d : Nat} (nnn : Addr12) : fieldNNN (formNNN d nnn) = nnn := by
  have := nnn.isLt
  apply BitVec.eq_of_toNat_eq
  simp only [fieldNNN, formNNN, BitVec.toNat_ofNat]; omega

/-! Format XNN. -/

theorem fieldD1_formXNN {d : Nat} (hd : d < 16) (x : Reg) (nn : Byte) : fieldD1 (formXNN d x nn) = d := by
  have := nn.isLt; have := x.isLt
  simp only [fieldD1, formXNN, BitVec.toNat_ofNat]; omega

theorem fieldX_formXNN {d : Nat} (x : Reg) (nn : Byte) : fieldX (formXNN d x nn) = x := by
  have := nn.isLt; have := x.isLt
  apply Fin.ext
  simp only [fieldX, formXNN, BitVec.toNat_ofNat]; omega

theorem fieldNN_formXNN {d : Nat} (x : Reg) (nn : Byte) : fieldNN (formXNN d x nn) = nn := by
  have := nn.isLt; have := x.isLt
  apply BitVec.eq_of_toNat_eq
  simp only [fieldNN, lowByte, formXNN, BitVec.toNat_ofNat]; omega

/-! Formats XY and XYN. -/

theorem fieldD1_formXYN {d n : Nat} (hd : d < 16) (hn : n < 16) (x y : Reg) : fieldD1 (formXYN d x y n) = d := by
  have := x.isLt; have := y.isLt
  simp only [fieldD1, formXYN, BitVec.toNat_ofNat]; omega

theorem fieldX_formXYN {d n : Nat} (hn : n < 16) (x y : Reg) : fieldX (formXYN d x y n) = x := by
  have := x.isLt; have := y.isLt
  apply Fin.ext
  simp only [fieldX, formXYN, BitVec.toNat_ofNat]; omega

theorem fieldY_formXYN {d n : Nat} (hn : n < 16) (x y : Reg) : fieldY (formXYN d x y n) = y := by
  have := x.isLt; have := y.isLt
  apply Fin.ext
  simp only [fieldY, formXYN, BitVec.toNat_ofNat]; omega

theorem fieldN_formXYN {d n : Nat} (hn : n < 16) (x y : Reg) : (fieldN (formXYN d x y n)).val = n := by
  have := x.isLt; have := y.isLt
  simp only [fieldN, formXYN, BitVec.toNat_ofNat]; omega

/-! Format X. -/

theorem fieldD1_formX {d l : Nat} (hd : d < 16) (hl : l < 256) (x : Reg) : fieldD1 (formX d x l) = d := by
  have := x.isLt
  simp only [fieldD1, formX, BitVec.toNat_ofNat]; omega

theorem fieldX_formX {d l : Nat} (hl : l < 256) (x : Reg) : fieldX (formX d x l) = x := by
  have := x.isLt
  apply Fin.ext
  simp only [fieldX, formX, BitVec.toNat_ofNat]; omega

theorem fieldNN_formX {d l : Nat} (hl : l < 256) (x : Reg) : (fieldNN (formX d x l)).toNat = l := by
  have := x.isLt
  simp only [fieldNN, lowByte, formX, BitVec.toNat_ofNat]; omega

/-! The masks of the opcode map, as arithmetic on the word (R84). -/

/-- Masking a 16-bit number to its top nibble. -/
theorem nat_and_F000 {n : Nat} (h : n < 2 ^ 16) : n &&& 0xF000 = n / 0x1000 * 2 ^ 12 := by
  apply Nat.eq_of_testBit_eq
  intro k
  rw [Nat.testBit_and, show (0xF000 : Nat) = (2 ^ 4 - 1) * 2 ^ 12 by rfl, show (0x1000 : Nat) = 2 ^ 12 by rfl,
    Nat.testBit_mul_two_pow, Nat.testBit_mul_two_pow, Nat.testBit_two_pow_sub_one, Nat.testBit_div_two_pow]
  by_cases hk : 12 ≤ k
  · by_cases hk' : k - 12 < 4
    · simp [hk, hk', Nat.sub_add_cancel hk]
    · have : n.testBit k = false :=
        Nat.testBit_lt_two_pow (lt_of_lt_of_le h (Nat.pow_le_pow_right (by omega) (by omega)))
      simp [hk, Nat.sub_add_cancel hk, this]
  · simp [hk]

/-- Masking a 16-bit number to its top nibble and its low `k` bits. -/
theorem nat_and_top_low {n : Nat} (h : n < 2 ^ 16) {k : Nat} (hk : k ≤ 12) :
    n &&& (0xF000 ||| (2 ^ k - 1)) = n / 0x1000 * 0x1000 + n % 2 ^ k := by
  have hlt : n % 2 ^ k < 2 ^ 12 :=
    lt_of_lt_of_le (Nat.mod_lt _ (Nat.two_pow_pos k)) (Nat.pow_le_pow_right (by omega) hk)
  rw [Nat.and_or_distrib_left, nat_and_F000 h, Nat.and_two_pow_sub_one_eq_mod, Nat.mul_comm,
    ← Nat.two_pow_add_eq_or_of_lt hlt, Nat.mul_comm]

/-- Mask 0xFFFF compares the whole word. -/
theorem and_FFFF_eq_iff (w c : Word) : w &&& 0xFFFF = c ↔ w.toNat = c.toNat := by
  have : w &&& 0xFFFF = w := by
    rw [show (0xFFFF : Word) = BitVec.allOnes 16 by rfl, BitVec.and_allOnes]
  rw [this, ← BitVec.toNat_inj]

/-- Mask 0xF000 compares `d1`. -/
theorem and_F000_eq_iff (w c : Word) : w &&& 0xF000 = c ↔ w.toNat / 0x1000 * 0x1000 = c.toNat := by
  rw [← BitVec.toNat_inj, BitVec.toNat_and, show (0xF000 : Word).toNat = 0xF000 by rfl, nat_and_F000 w.isLt,
    show (2 ^ 12 : Nat) = 0x1000 by rfl]

/-- Mask 0xF00F compares `d1` and `d4`. -/
theorem and_F00F_eq_iff (w c : Word) :
    w &&& 0xF00F = c ↔ w.toNat / 0x1000 * 0x1000 + w.toNat % 0x10 = c.toNat := by
  rw [← BitVec.toNat_inj, BitVec.toNat_and, show (0xF00F : Word).toNat = 0xF000 ||| (2 ^ 4 - 1) by rfl,
    nat_and_top_low w.isLt (by omega), show (2 ^ 4 : Nat) = 0x10 by rfl]

/-- Mask 0xF0FF compares `d1` and the low byte. -/
theorem and_F0FF_eq_iff (w c : Word) :
    w &&& 0xF0FF = c ↔ w.toNat / 0x1000 * 0x1000 + w.toNat % 0x100 = c.toNat := by
  rw [← BitVec.toNat_inj, BitVec.toNat_and, show (0xF0FF : Word).toNat = 0xF000 ||| (2 ^ 8 - 1) by rfl,
    nat_and_top_low w.isLt (by omega), show (2 ^ 8 : Nat) = 0x100 by rfl]

/-! The formats, as numbers. -/

theorem formNNN_toNat {d : Nat} (hd : d < 16) (nnn : Addr12) : (formNNN d nnn).toNat = d * 0x1000 + nnn.toNat := by
  have := nnn.isLt
  simp only [formNNN, BitVec.toNat_ofNat]; omega

theorem formXNN_toNat {d : Nat} (hd : d < 16) (x : Reg) (nn : Byte) :
    (formXNN d x nn).toNat = d * 0x1000 + x.val * 0x100 + nn.toNat := by
  have := nn.isLt; have := x.isLt
  simp only [formXNN, BitVec.toNat_ofNat]; omega

theorem formXYN_toNat {d n : Nat} (hd : d < 16) (hn : n < 16) (x y : Reg) :
    (formXYN d x y n).toNat = d * 0x1000 + x.val * 0x100 + y.val * 0x10 + n := by
  have := x.isLt; have := y.isLt
  simp only [formXYN, BitVec.toNat_ofNat]; omega

theorem formX_toNat {d l : Nat} (hd : d < 16) (hl : l < 256) (x : Reg) :
    (formX d x l).toNat = d * 0x1000 + x.val * 0x100 + l := by
  have := x.isLt
  simp only [formX, BitVec.toNat_ofNat]; omega

/-! The fixed bits of each format (R82, R85). -/

theorem formNNN_masked {d : Nat} (hd : d < 16) (nnn : Addr12) :
    formNNN d nnn &&& 0xF000 = BitVec.ofNat 16 (d * 0x1000) := by
  have := nnn.isLt
  rw [and_F000_eq_iff, formNNN_toNat hd, BitVec.toNat_ofNat]; omega

theorem formXNN_masked {d : Nat} (hd : d < 16) (x : Reg) (nn : Byte) :
    formXNN d x nn &&& 0xF000 = BitVec.ofNat 16 (d * 0x1000) := by
  have := nn.isLt; have := x.isLt
  rw [and_F000_eq_iff, formXNN_toNat hd, BitVec.toNat_ofNat]; omega

theorem formXYN_masked {d n : Nat} (hd : d < 16) (hn : n < 16) (x y : Reg) :
    formXYN d x y n &&& 0xF00F = BitVec.ofNat 16 (d * 0x1000 + n) := by
  have := x.isLt; have := y.isLt
  rw [and_F00F_eq_iff, formXYN_toNat hd hn, BitVec.toNat_ofNat]; omega

theorem formXYN_masked_d1 {d n : Nat} (hd : d < 16) (hn : n < 16) (x y : Reg) :
    formXYN d x y n &&& 0xF000 = BitVec.ofNat 16 (d * 0x1000) := by
  have := x.isLt; have := y.isLt
  rw [and_F000_eq_iff, formXYN_toNat hd hn, BitVec.toNat_ofNat]; omega

theorem formX_masked {d l : Nat} (hd : d < 16) (hl : l < 256) (x : Reg) :
    formX d x l &&& 0xF0FF = BitVec.ofNat 16 (d * 0x1000 + l) := by
  have := x.isLt
  rw [and_F0FF_eq_iff, formX_toNat hd hl, BitVec.toNat_ofNat]; omega

end Sys2Proof
end

