-- ==== Sys2Proof/Laws/Memory.lean ====
section
/-! SUPPORT. Memory: what a read gives after a write, and that every write keeps the canonical form. -/

namespace Sys2Proof.Machine

/-- Every cell of the list lies at or above `lo`. -/
abbrev Memory.From (lo : Nat) (m : Memory) : Prop := ∀ c ∈ m, lo ≤ c.1

/-- The canonical form of a list with a head. -/
theorem Memory.wf_cons_iff (a : Nat) (v : Byte) (m : Memory) :
    Memory.wf ((a, v) :: m) = true ↔
      a < Config.memSize ∧ v ≠ memDefault a ∧ Memory.From (a + 1) m ∧ Memory.wf m = true := by
  simp [Memory.wf, Memory.From, and_assoc]

/-- Below its first cell a memory reads as after reset. -/
theorem Memory.read_below {m : Memory} {a : Nat} (h : Memory.From (a + 1) m) : Memory.read m a = memDefault a := by
  induction m with
  | nil => rfl
  | cons c m ih =>
    obtain ⟨b, v⟩ := c
    have hb : a + 1 ≤ b := h (b, v) (by simp)
    rw [Memory.read, if_neg (by omega)]
    exact ih fun c hc => h c (by simp [hc])

theorem Memory.read_cons_same {m : Memory} {a : Nat} (v : Byte) (h : Memory.From (a + 1) m) :
    Memory.read (Memory.cons a v m) a = v := by
  unfold Memory.cons
  split
  · rename_i hv; rw [Memory.read_below h, hv]
  · simp [Memory.read]

theorem Memory.read_cons_ne (m : Memory) {a b : Nat} (v : Byte) (h : b ≠ a) :
    Memory.read (Memory.cons a v m) b = Memory.read m b := by
  unfold Memory.cons
  split
  · rfl
  · simp [Memory.read, Ne.symm h]

/-- A write leaves every other byte alone, whatever the list. -/
theorem Memory.read_write_ne (m : Memory) {a b : Nat} (v : Byte) (h : b ≠ a) :
    Memory.read (Memory.write m a v) b = Memory.read m b := by
  induction m with
  | nil => exact Memory.read_cons_ne [] v h
  | cons c m ih =>
    obtain ⟨d, w⟩ := c
    rw [Memory.write]
    split
    · exact Memory.read_cons_ne _ v h
    · split
      · rename_i _ had
        subst had
        rw [Memory.read_cons_ne m v h, Memory.read, if_neg (Ne.symm h)]
      · simp only [Memory.read, ih]

/-- A write to a canonical memory is read back. -/
theorem Memory.read_write_same {m : Memory} (hm : Memory.wf m = true) (a : Nat) (v : Byte) :
    Memory.read (Memory.write m a v) a = v := by
  induction m with
  | nil => exact Memory.read_cons_same v (by simp [Memory.From])
  | cons c m ih =>
    obtain ⟨d, w⟩ := c
    obtain ⟨-, -, hfrom, hwf⟩ := (Memory.wf_cons_iff d w m).1 hm
    rw [Memory.write]
    split
    · refine Memory.read_cons_same v ?_
      intro c hc
      rcases List.mem_cons.1 hc with rfl | hc
      · simpa using ‹a < d›
      · have := hfrom c hc; omega
    · split
      · rename_i _ had
        subst had
        exact Memory.read_cons_same v hfrom
      · rw [Memory.read, if_neg (by omega)]
        exact ih hwf

/-- A write adds no cell below the lower of its address and the list's bound. -/
theorem Memory.from_write {m : Memory} {lo a : Nat} (v : Byte) (h : Memory.From lo m) (ha : lo ≤ a) :
    Memory.From lo (Memory.write m a v) := by
  have hcons : ∀ m' : Memory, Memory.From lo m' → Memory.From lo (Memory.cons a v m') := by
    intro m' h' c hc
    unfold Memory.cons at hc
    split at hc
    · exact h' c hc
    · rcases List.mem_cons.1 hc with rfl | hc
      · exact ha
      · exact h' c hc
  induction m with
  | nil => exact hcons [] h
  | cons c m ih =>
    obtain ⟨d, w⟩ := c
    have htail : Memory.From lo m := fun c hc => h c (by simp [hc])
    rw [Memory.write]
    split
    · exact hcons _ h
    · split
      · exact hcons _ htail
      · intro c hc
        rcases List.mem_cons.1 hc with rfl | hc
        · exact h _ (by simp)
        · exact ih htail c hc

/-- A write inside the address space keeps the canonical form. -/
theorem Memory.wf_write {m : Memory} (hm : Memory.wf m = true) {a : Nat} (ha : a < Config.memSize) (v : Byte) :
    Memory.wf (Memory.write m a v) = true := by
  have hcons : ∀ m' : Memory, Memory.wf m' = true → Memory.From (a + 1) m' → Memory.wf (Memory.cons a v m') = true := by
    intro m' h' hf
    unfold Memory.cons
    split
    · exact h'
    · exact (Memory.wf_cons_iff a v m').2 ⟨ha, ‹_›, hf, h'⟩
  induction m with
  | nil => exact hcons [] hm (by simp [Memory.From])
  | cons c m ih =>
    obtain ⟨d, w⟩ := c
    obtain ⟨hd, hw, hfrom, hwf⟩ := (Memory.wf_cons_iff d w m).1 hm
    rw [Memory.write]
    split
    · refine hcons _ hm ?_
      intro c hc
      rcases List.mem_cons.1 hc with rfl | hc
      · simpa using ‹a < d›
      · have := hfrom c hc; omega
    · split
      · rename_i _ had
        subst had
        exact hcons m hwf hfrom
      · exact (Memory.wf_cons_iff d w _).2 ⟨hd, hw, Memory.from_write v hfrom (by omega), ih hwf⟩

/-- A block write inside the address space keeps the canonical form. -/
theorem Memory.wf_writeList {m : Memory} (hm : Memory.wf m = true) {a : Nat} {vs : List Byte}
    (h : a + vs.length ≤ Config.memSize) : Memory.wf (Memory.writeList m a vs) = true := by
  induction vs generalizing m a with
  | nil => exact hm
  | cons v vs ih =>
    simp only [List.length_cons] at h
    exact ih (Memory.wf_write hm (by omega) v) (by omega)

/-- A block write leaves every byte outside its block alone, whatever the list. -/
theorem Memory.read_writeList_outside (m : Memory) {a b : Nat} {vs : List Byte} (h : b < a ∨ a + vs.length ≤ b) :
    Memory.read (Memory.writeList m a vs) b = Memory.read m b := by
  induction vs generalizing m a with
  | nil => rfl
  | cons v vs ih =>
    simp only [List.length_cons] at h
    rw [Memory.writeList, ih _ (by omega), Memory.read_write_ne m v (by omega)]

/-- A block write to a canonical memory is read back, byte by byte. -/
theorem Memory.read_writeList_inside {m : Memory} (hm : Memory.wf m = true) {a k : Nat} {vs : List Byte}
    (h : a + vs.length ≤ Config.memSize) {v : Byte} (hv : vs[k]? = some v) :
    Memory.read (Memory.writeList m a vs) (a + k) = v := by
  induction vs generalizing m a k with
  | nil => simp at hv
  | cons w vs ih =>
    simp only [List.length_cons] at h
    rw [Memory.writeList]
    cases k with
    | zero =>
      rw [Memory.read_writeList_outside _ (by omega)]
      simp only [List.getElem?_cons_zero, Option.some.injEq] at hv
      rw [hv]
      exact Memory.read_write_same hm a v
    | succ k =>
      have := ih (Memory.wf_write hm (a := a) (by omega) w) (a := a + 1) (k := k) (by omega) (by simpa using hv)
      rwa [show a + (k + 1) = a + 1 + k by omega]

/-- Above the font, an unlisted address reads as zero. -/
theorem memDefault_above_font {a : Nat} (h : 80 ≤ a) : memDefault a = 0 := by
  have hl : Config.font.length = 80 := by decide
  simp [memDefault, List.getElem?_eq_none (hl ▸ h)]

end Sys2Proof.Machine
end

