-- ==== Sys2Proof/Laws/State.lean ====
section
/-! SUPPORT. One lemma per field per update, so that no later proof unfolds a record update, and the reads through them. -/

namespace Sys2Proof.Machine

variable (s : State)

/-! `State.setPc` -/

@[simp] theorem State.setPc_v (a : Word) : (s.setPc a).v = s.v := rfl
@[simp] theorem State.setPc_i (a : Word) : (s.setPc a).i = s.i := rfl
@[simp] theorem State.setPc_pc (a : Word) : (s.setPc a).pc = a := rfl
@[simp] theorem State.setPc_stack (a : Word) : (s.setPc a).stack = s.stack := rfl
@[simp] theorem State.setPc_sp (a : Word) : (s.setPc a).sp = s.sp := rfl
@[simp] theorem State.setPc_dt (a : Word) : (s.setPc a).dt = s.dt := rfl
@[simp] theorem State.setPc_st (a : Word) : (s.setPc a).st = s.st := rfl
@[simp] theorem State.setPc_mem (a : Word) : (s.setPc a).mem = s.mem := rfl
@[simp] theorem State.setPc_fb (a : Word) : (s.setPc a).fb = s.fb := rfl
@[simp] theorem State.setPc_key (a : Word) : (s.setPc a).key = s.key := rfl
@[simp] theorem State.setPc_host (a : Word) : (s.setPc a).host = s.host := rfl
@[simp] theorem State.setPc_plan (a : Word) : (s.setPc a).plan = s.plan := rfl
@[simp] theorem State.setPc_picks (a : Word) : (s.setPc a).picks = s.picks := rfl
@[simp] theorem State.setPc_rnd (a : Word) : (s.setPc a).rnd = s.rnd := rfl
@[simp] theorem State.setPc_draws (a : Word) : (s.setPc a).draws = s.draws := rfl

/-! `State.setI` -/

@[simp] theorem State.setI_v (a : Word) : (s.setI a).v = s.v := rfl
@[simp] theorem State.setI_i (a : Word) : (s.setI a).i = a := rfl
@[simp] theorem State.setI_pc (a : Word) : (s.setI a).pc = s.pc := rfl
@[simp] theorem State.setI_stack (a : Word) : (s.setI a).stack = s.stack := rfl
@[simp] theorem State.setI_sp (a : Word) : (s.setI a).sp = s.sp := rfl
@[simp] theorem State.setI_dt (a : Word) : (s.setI a).dt = s.dt := rfl
@[simp] theorem State.setI_st (a : Word) : (s.setI a).st = s.st := rfl
@[simp] theorem State.setI_mem (a : Word) : (s.setI a).mem = s.mem := rfl
@[simp] theorem State.setI_fb (a : Word) : (s.setI a).fb = s.fb := rfl
@[simp] theorem State.setI_key (a : Word) : (s.setI a).key = s.key := rfl
@[simp] theorem State.setI_host (a : Word) : (s.setI a).host = s.host := rfl
@[simp] theorem State.setI_plan (a : Word) : (s.setI a).plan = s.plan := rfl
@[simp] theorem State.setI_picks (a : Word) : (s.setI a).picks = s.picks := rfl
@[simp] theorem State.setI_rnd (a : Word) : (s.setI a).rnd = s.rnd := rfl
@[simp] theorem State.setI_draws (a : Word) : (s.setI a).draws = s.draws := rfl

/-! `State.setV` -/

@[simp] theorem State.setV_v (v : Vector Byte 16) : (s.setV v).v = v := rfl
@[simp] theorem State.setV_i (v : Vector Byte 16) : (s.setV v).i = s.i := rfl
@[simp] theorem State.setV_pc (v : Vector Byte 16) : (s.setV v).pc = s.pc := rfl
@[simp] theorem State.setV_stack (v : Vector Byte 16) : (s.setV v).stack = s.stack := rfl
@[simp] theorem State.setV_sp (v : Vector Byte 16) : (s.setV v).sp = s.sp := rfl
@[simp] theorem State.setV_dt (v : Vector Byte 16) : (s.setV v).dt = s.dt := rfl
@[simp] theorem State.setV_st (v : Vector Byte 16) : (s.setV v).st = s.st := rfl
@[simp] theorem State.setV_mem (v : Vector Byte 16) : (s.setV v).mem = s.mem := rfl
@[simp] theorem State.setV_fb (v : Vector Byte 16) : (s.setV v).fb = s.fb := rfl
@[simp] theorem State.setV_key (v : Vector Byte 16) : (s.setV v).key = s.key := rfl
@[simp] theorem State.setV_host (v : Vector Byte 16) : (s.setV v).host = s.host := rfl
@[simp] theorem State.setV_plan (v : Vector Byte 16) : (s.setV v).plan = s.plan := rfl
@[simp] theorem State.setV_picks (v : Vector Byte 16) : (s.setV v).picks = s.picks := rfl
@[simp] theorem State.setV_rnd (v : Vector Byte 16) : (s.setV v).rnd = s.rnd := rfl
@[simp] theorem State.setV_draws (v : Vector Byte 16) : (s.setV v).draws = s.draws := rfl

/-! `State.setReg` -/

@[simp] theorem State.setReg_v (r : Reg) (b : Byte) : (s.setReg r b).v = s.v.set r b := rfl
@[simp] theorem State.setReg_i (r : Reg) (b : Byte) : (s.setReg r b).i = s.i := rfl
@[simp] theorem State.setReg_pc (r : Reg) (b : Byte) : (s.setReg r b).pc = s.pc := rfl
@[simp] theorem State.setReg_stack (r : Reg) (b : Byte) : (s.setReg r b).stack = s.stack := rfl
@[simp] theorem State.setReg_sp (r : Reg) (b : Byte) : (s.setReg r b).sp = s.sp := rfl
@[simp] theorem State.setReg_dt (r : Reg) (b : Byte) : (s.setReg r b).dt = s.dt := rfl
@[simp] theorem State.setReg_st (r : Reg) (b : Byte) : (s.setReg r b).st = s.st := rfl
@[simp] theorem State.setReg_mem (r : Reg) (b : Byte) : (s.setReg r b).mem = s.mem := rfl
@[simp] theorem State.setReg_fb (r : Reg) (b : Byte) : (s.setReg r b).fb = s.fb := rfl
@[simp] theorem State.setReg_key (r : Reg) (b : Byte) : (s.setReg r b).key = s.key := rfl
@[simp] theorem State.setReg_host (r : Reg) (b : Byte) : (s.setReg r b).host = s.host := rfl
@[simp] theorem State.setReg_plan (r : Reg) (b : Byte) : (s.setReg r b).plan = s.plan := rfl
@[simp] theorem State.setReg_picks (r : Reg) (b : Byte) : (s.setReg r b).picks = s.picks := rfl
@[simp] theorem State.setReg_rnd (r : Reg) (b : Byte) : (s.setReg r b).rnd = s.rnd := rfl
@[simp] theorem State.setReg_draws (r : Reg) (b : Byte) : (s.setReg r b).draws = s.draws := rfl

/-! `State.setStack` -/

@[simp] theorem State.setStack_v (k : Vector Word Config.stackDepth) (d : Fin (Config.stackDepth + 1)) : (s.setStack k d).v = s.v := rfl
@[simp] theorem State.setStack_i (k : Vector Word Config.stackDepth) (d : Fin (Config.stackDepth + 1)) : (s.setStack k d).i = s.i := rfl
@[simp] theorem State.setStack_pc (k : Vector Word Config.stackDepth) (d : Fin (Config.stackDepth + 1)) : (s.setStack k d).pc = s.pc := rfl
@[simp] theorem State.setStack_stack (k : Vector Word Config.stackDepth) (d : Fin (Config.stackDepth + 1)) : (s.setStack k d).stack = k := rfl
@[simp] theorem State.setStack_sp (k : Vector Word Config.stackDepth) (d : Fin (Config.stackDepth + 1)) : (s.setStack k d).sp = d := rfl
@[simp] theorem State.setStack_dt (k : Vector Word Config.stackDepth) (d : Fin (Config.stackDepth + 1)) : (s.setStack k d).dt = s.dt := rfl
@[simp] theorem State.setStack_st (k : Vector Word Config.stackDepth) (d : Fin (Config.stackDepth + 1)) : (s.setStack k d).st = s.st := rfl
@[simp] theorem State.setStack_mem (k : Vector Word Config.stackDepth) (d : Fin (Config.stackDepth + 1)) : (s.setStack k d).mem = s.mem := rfl
@[simp] theorem State.setStack_fb (k : Vector Word Config.stackDepth) (d : Fin (Config.stackDepth + 1)) : (s.setStack k d).fb = s.fb := rfl
@[simp] theorem State.setStack_key (k : Vector Word Config.stackDepth) (d : Fin (Config.stackDepth + 1)) : (s.setStack k d).key = s.key := rfl
@[simp] theorem State.setStack_host (k : Vector Word Config.stackDepth) (d : Fin (Config.stackDepth + 1)) : (s.setStack k d).host = s.host := rfl
@[simp] theorem State.setStack_plan (k : Vector Word Config.stackDepth) (d : Fin (Config.stackDepth + 1)) : (s.setStack k d).plan = s.plan := rfl
@[simp] theorem State.setStack_picks (k : Vector Word Config.stackDepth) (d : Fin (Config.stackDepth + 1)) : (s.setStack k d).picks = s.picks := rfl
@[simp] theorem State.setStack_rnd (k : Vector Word Config.stackDepth) (d : Fin (Config.stackDepth + 1)) : (s.setStack k d).rnd = s.rnd := rfl
@[simp] theorem State.setStack_draws (k : Vector Word Config.stackDepth) (d : Fin (Config.stackDepth + 1)) : (s.setStack k d).draws = s.draws := rfl

/-! `State.setDt` -/

@[simp] theorem State.setDt_v (b : Byte) : (s.setDt b).v = s.v := rfl
@[simp] theorem State.setDt_i (b : Byte) : (s.setDt b).i = s.i := rfl
@[simp] theorem State.setDt_pc (b : Byte) : (s.setDt b).pc = s.pc := rfl
@[simp] theorem State.setDt_stack (b : Byte) : (s.setDt b).stack = s.stack := rfl
@[simp] theorem State.setDt_sp (b : Byte) : (s.setDt b).sp = s.sp := rfl
@[simp] theorem State.setDt_dt (b : Byte) : (s.setDt b).dt = b := rfl
@[simp] theorem State.setDt_st (b : Byte) : (s.setDt b).st = s.st := rfl
@[simp] theorem State.setDt_mem (b : Byte) : (s.setDt b).mem = s.mem := rfl
@[simp] theorem State.setDt_fb (b : Byte) : (s.setDt b).fb = s.fb := rfl
@[simp] theorem State.setDt_key (b : Byte) : (s.setDt b).key = s.key := rfl
@[simp] theorem State.setDt_host (b : Byte) : (s.setDt b).host = s.host := rfl
@[simp] theorem State.setDt_plan (b : Byte) : (s.setDt b).plan = s.plan := rfl
@[simp] theorem State.setDt_picks (b : Byte) : (s.setDt b).picks = s.picks := rfl
@[simp] theorem State.setDt_rnd (b : Byte) : (s.setDt b).rnd = s.rnd := rfl
@[simp] theorem State.setDt_draws (b : Byte) : (s.setDt b).draws = s.draws := rfl

/-! `State.setSt` -/

@[simp] theorem State.setSt_v (b : Byte) : (s.setSt b).v = s.v := rfl
@[simp] theorem State.setSt_i (b : Byte) : (s.setSt b).i = s.i := rfl
@[simp] theorem State.setSt_pc (b : Byte) : (s.setSt b).pc = s.pc := rfl
@[simp] theorem State.setSt_stack (b : Byte) : (s.setSt b).stack = s.stack := rfl
@[simp] theorem State.setSt_sp (b : Byte) : (s.setSt b).sp = s.sp := rfl
@[simp] theorem State.setSt_dt (b : Byte) : (s.setSt b).dt = s.dt := rfl
@[simp] theorem State.setSt_st (b : Byte) : (s.setSt b).st = b := rfl
@[simp] theorem State.setSt_mem (b : Byte) : (s.setSt b).mem = s.mem := rfl
@[simp] theorem State.setSt_fb (b : Byte) : (s.setSt b).fb = s.fb := rfl
@[simp] theorem State.setSt_key (b : Byte) : (s.setSt b).key = s.key := rfl
@[simp] theorem State.setSt_host (b : Byte) : (s.setSt b).host = s.host := rfl
@[simp] theorem State.setSt_plan (b : Byte) : (s.setSt b).plan = s.plan := rfl
@[simp] theorem State.setSt_picks (b : Byte) : (s.setSt b).picks = s.picks := rfl
@[simp] theorem State.setSt_rnd (b : Byte) : (s.setSt b).rnd = s.rnd := rfl
@[simp] theorem State.setSt_draws (b : Byte) : (s.setSt b).draws = s.draws := rfl

/-! `State.setMem` -/

@[simp] theorem State.setMem_v (m : Memory) : (s.setMem m).v = s.v := rfl
@[simp] theorem State.setMem_i (m : Memory) : (s.setMem m).i = s.i := rfl
@[simp] theorem State.setMem_pc (m : Memory) : (s.setMem m).pc = s.pc := rfl
@[simp] theorem State.setMem_stack (m : Memory) : (s.setMem m).stack = s.stack := rfl
@[simp] theorem State.setMem_sp (m : Memory) : (s.setMem m).sp = s.sp := rfl
@[simp] theorem State.setMem_dt (m : Memory) : (s.setMem m).dt = s.dt := rfl
@[simp] theorem State.setMem_st (m : Memory) : (s.setMem m).st = s.st := rfl
@[simp] theorem State.setMem_mem (m : Memory) : (s.setMem m).mem = m := rfl
@[simp] theorem State.setMem_fb (m : Memory) : (s.setMem m).fb = s.fb := rfl
@[simp] theorem State.setMem_key (m : Memory) : (s.setMem m).key = s.key := rfl
@[simp] theorem State.setMem_host (m : Memory) : (s.setMem m).host = s.host := rfl
@[simp] theorem State.setMem_plan (m : Memory) : (s.setMem m).plan = s.plan := rfl
@[simp] theorem State.setMem_picks (m : Memory) : (s.setMem m).picks = s.picks := rfl
@[simp] theorem State.setMem_rnd (m : Memory) : (s.setMem m).rnd = s.rnd := rfl
@[simp] theorem State.setMem_draws (m : Memory) : (s.setMem m).draws = s.draws := rfl

/-! `State.setFb` -/

@[simp] theorem State.setFb_v (f : Fb) : (s.setFb f).v = s.v := rfl
@[simp] theorem State.setFb_i (f : Fb) : (s.setFb f).i = s.i := rfl
@[simp] theorem State.setFb_pc (f : Fb) : (s.setFb f).pc = s.pc := rfl
@[simp] theorem State.setFb_stack (f : Fb) : (s.setFb f).stack = s.stack := rfl
@[simp] theorem State.setFb_sp (f : Fb) : (s.setFb f).sp = s.sp := rfl
@[simp] theorem State.setFb_dt (f : Fb) : (s.setFb f).dt = s.dt := rfl
@[simp] theorem State.setFb_st (f : Fb) : (s.setFb f).st = s.st := rfl
@[simp] theorem State.setFb_mem (f : Fb) : (s.setFb f).mem = s.mem := rfl
@[simp] theorem State.setFb_fb (f : Fb) : (s.setFb f).fb = f := rfl
@[simp] theorem State.setFb_key (f : Fb) : (s.setFb f).key = s.key := rfl
@[simp] theorem State.setFb_host (f : Fb) : (s.setFb f).host = s.host := rfl
@[simp] theorem State.setFb_plan (f : Fb) : (s.setFb f).plan = s.plan := rfl
@[simp] theorem State.setFb_picks (f : Fb) : (s.setFb f).picks = s.picks := rfl
@[simp] theorem State.setFb_rnd (f : Fb) : (s.setFb f).rnd = s.rnd := rfl
@[simp] theorem State.setFb_draws (f : Fb) : (s.setFb f).draws = s.draws := rfl

/-! `State.setKeys` -/

@[simp] theorem State.setKeys_v (k : Vector Bool Config.numKeys) : (s.setKeys k).v = s.v := rfl
@[simp] theorem State.setKeys_i (k : Vector Bool Config.numKeys) : (s.setKeys k).i = s.i := rfl
@[simp] theorem State.setKeys_pc (k : Vector Bool Config.numKeys) : (s.setKeys k).pc = s.pc := rfl
@[simp] theorem State.setKeys_stack (k : Vector Bool Config.numKeys) : (s.setKeys k).stack = s.stack := rfl
@[simp] theorem State.setKeys_sp (k : Vector Bool Config.numKeys) : (s.setKeys k).sp = s.sp := rfl
@[simp] theorem State.setKeys_dt (k : Vector Bool Config.numKeys) : (s.setKeys k).dt = s.dt := rfl
@[simp] theorem State.setKeys_st (k : Vector Bool Config.numKeys) : (s.setKeys k).st = s.st := rfl
@[simp] theorem State.setKeys_mem (k : Vector Bool Config.numKeys) : (s.setKeys k).mem = s.mem := rfl
@[simp] theorem State.setKeys_fb (k : Vector Bool Config.numKeys) : (s.setKeys k).fb = s.fb := rfl
@[simp] theorem State.setKeys_key (k : Vector Bool Config.numKeys) : (s.setKeys k).key = k := rfl
@[simp] theorem State.setKeys_host (k : Vector Bool Config.numKeys) : (s.setKeys k).host = s.host := rfl
@[simp] theorem State.setKeys_plan (k : Vector Bool Config.numKeys) : (s.setKeys k).plan = s.plan := rfl
@[simp] theorem State.setKeys_picks (k : Vector Bool Config.numKeys) : (s.setKeys k).picks = s.picks := rfl
@[simp] theorem State.setKeys_rnd (k : Vector Bool Config.numKeys) : (s.setKeys k).rnd = s.rnd := rfl
@[simp] theorem State.setKeys_draws (k : Vector Bool Config.numKeys) : (s.setKeys k).draws = s.draws := rfl

/-! `State.setHost` -/

@[simp] theorem State.setHost_v (ops : List HostOp) : (s.setHost ops).v = s.v := rfl
@[simp] theorem State.setHost_i (ops : List HostOp) : (s.setHost ops).i = s.i := rfl
@[simp] theorem State.setHost_pc (ops : List HostOp) : (s.setHost ops).pc = s.pc := rfl
@[simp] theorem State.setHost_stack (ops : List HostOp) : (s.setHost ops).stack = s.stack := rfl
@[simp] theorem State.setHost_sp (ops : List HostOp) : (s.setHost ops).sp = s.sp := rfl
@[simp] theorem State.setHost_dt (ops : List HostOp) : (s.setHost ops).dt = s.dt := rfl
@[simp] theorem State.setHost_st (ops : List HostOp) : (s.setHost ops).st = s.st := rfl
@[simp] theorem State.setHost_mem (ops : List HostOp) : (s.setHost ops).mem = s.mem := rfl
@[simp] theorem State.setHost_fb (ops : List HostOp) : (s.setHost ops).fb = s.fb := rfl
@[simp] theorem State.setHost_key (ops : List HostOp) : (s.setHost ops).key = s.key := rfl
@[simp] theorem State.setHost_host (ops : List HostOp) : (s.setHost ops).host = ops := rfl
@[simp] theorem State.setHost_plan (ops : List HostOp) : (s.setHost ops).plan = s.plan := rfl
@[simp] theorem State.setHost_picks (ops : List HostOp) : (s.setHost ops).picks = s.picks := rfl
@[simp] theorem State.setHost_rnd (ops : List HostOp) : (s.setHost ops).rnd = s.rnd := rfl
@[simp] theorem State.setHost_draws (ops : List HostOp) : (s.setHost ops).draws = s.draws := rfl

/-! `State.setPlan` -/

@[simp] theorem State.setPlan_v (p : HostPlan) : (s.setPlan p).v = s.v := rfl
@[simp] theorem State.setPlan_i (p : HostPlan) : (s.setPlan p).i = s.i := rfl
@[simp] theorem State.setPlan_pc (p : HostPlan) : (s.setPlan p).pc = s.pc := rfl
@[simp] theorem State.setPlan_stack (p : HostPlan) : (s.setPlan p).stack = s.stack := rfl
@[simp] theorem State.setPlan_sp (p : HostPlan) : (s.setPlan p).sp = s.sp := rfl
@[simp] theorem State.setPlan_dt (p : HostPlan) : (s.setPlan p).dt = s.dt := rfl
@[simp] theorem State.setPlan_st (p : HostPlan) : (s.setPlan p).st = s.st := rfl
@[simp] theorem State.setPlan_mem (p : HostPlan) : (s.setPlan p).mem = s.mem := rfl
@[simp] theorem State.setPlan_fb (p : HostPlan) : (s.setPlan p).fb = s.fb := rfl
@[simp] theorem State.setPlan_key (p : HostPlan) : (s.setPlan p).key = s.key := rfl
@[simp] theorem State.setPlan_host (p : HostPlan) : (s.setPlan p).host = s.host := rfl
@[simp] theorem State.setPlan_plan (p : HostPlan) : (s.setPlan p).plan = p := rfl
@[simp] theorem State.setPlan_picks (p : HostPlan) : (s.setPlan p).picks = s.picks := rfl
@[simp] theorem State.setPlan_rnd (p : HostPlan) : (s.setPlan p).rnd = s.rnd := rfl
@[simp] theorem State.setPlan_draws (p : HostPlan) : (s.setPlan p).draws = s.draws := rfl

/-! `State.setPicks` -/

@[simp] theorem State.setPicks_v (n : Nat) : (s.setPicks n).v = s.v := rfl
@[simp] theorem State.setPicks_i (n : Nat) : (s.setPicks n).i = s.i := rfl
@[simp] theorem State.setPicks_pc (n : Nat) : (s.setPicks n).pc = s.pc := rfl
@[simp] theorem State.setPicks_stack (n : Nat) : (s.setPicks n).stack = s.stack := rfl
@[simp] theorem State.setPicks_sp (n : Nat) : (s.setPicks n).sp = s.sp := rfl
@[simp] theorem State.setPicks_dt (n : Nat) : (s.setPicks n).dt = s.dt := rfl
@[simp] theorem State.setPicks_st (n : Nat) : (s.setPicks n).st = s.st := rfl
@[simp] theorem State.setPicks_mem (n : Nat) : (s.setPicks n).mem = s.mem := rfl
@[simp] theorem State.setPicks_fb (n : Nat) : (s.setPicks n).fb = s.fb := rfl
@[simp] theorem State.setPicks_key (n : Nat) : (s.setPicks n).key = s.key := rfl
@[simp] theorem State.setPicks_host (n : Nat) : (s.setPicks n).host = s.host := rfl
@[simp] theorem State.setPicks_plan (n : Nat) : (s.setPicks n).plan = s.plan := rfl
@[simp] theorem State.setPicks_picks (n : Nat) : (s.setPicks n).picks = n := rfl
@[simp] theorem State.setPicks_rnd (n : Nat) : (s.setPicks n).rnd = s.rnd := rfl
@[simp] theorem State.setPicks_draws (n : Nat) : (s.setPicks n).draws = s.draws := rfl

/-! `State.withRnd` -/

@[simp] theorem State.withRnd_v (x : Option Byte) : (s.withRnd x).v = s.v := rfl
@[simp] theorem State.withRnd_i (x : Option Byte) : (s.withRnd x).i = s.i := rfl
@[simp] theorem State.withRnd_pc (x : Option Byte) : (s.withRnd x).pc = s.pc := rfl
@[simp] theorem State.withRnd_stack (x : Option Byte) : (s.withRnd x).stack = s.stack := rfl
@[simp] theorem State.withRnd_sp (x : Option Byte) : (s.withRnd x).sp = s.sp := rfl
@[simp] theorem State.withRnd_dt (x : Option Byte) : (s.withRnd x).dt = s.dt := rfl
@[simp] theorem State.withRnd_st (x : Option Byte) : (s.withRnd x).st = s.st := rfl
@[simp] theorem State.withRnd_mem (x : Option Byte) : (s.withRnd x).mem = s.mem := rfl
@[simp] theorem State.withRnd_fb (x : Option Byte) : (s.withRnd x).fb = s.fb := rfl
@[simp] theorem State.withRnd_key (x : Option Byte) : (s.withRnd x).key = s.key := rfl
@[simp] theorem State.withRnd_host (x : Option Byte) : (s.withRnd x).host = s.host := rfl
@[simp] theorem State.withRnd_plan (x : Option Byte) : (s.withRnd x).plan = s.plan := rfl
@[simp] theorem State.withRnd_picks (x : Option Byte) : (s.withRnd x).picks = s.picks := rfl
@[simp] theorem State.withRnd_rnd (x : Option Byte) : (s.withRnd x).rnd = x := rfl
@[simp] theorem State.withRnd_draws (x : Option Byte) : (s.withRnd x).draws = s.draws := rfl

/-! `State.setDraws` -/

@[simp] theorem State.setDraws_v (n : Nat) : (s.setDraws n).v = s.v := rfl
@[simp] theorem State.setDraws_i (n : Nat) : (s.setDraws n).i = s.i := rfl
@[simp] theorem State.setDraws_pc (n : Nat) : (s.setDraws n).pc = s.pc := rfl
@[simp] theorem State.setDraws_stack (n : Nat) : (s.setDraws n).stack = s.stack := rfl
@[simp] theorem State.setDraws_sp (n : Nat) : (s.setDraws n).sp = s.sp := rfl
@[simp] theorem State.setDraws_dt (n : Nat) : (s.setDraws n).dt = s.dt := rfl
@[simp] theorem State.setDraws_st (n : Nat) : (s.setDraws n).st = s.st := rfl
@[simp] theorem State.setDraws_mem (n : Nat) : (s.setDraws n).mem = s.mem := rfl
@[simp] theorem State.setDraws_fb (n : Nat) : (s.setDraws n).fb = s.fb := rfl
@[simp] theorem State.setDraws_key (n : Nat) : (s.setDraws n).key = s.key := rfl
@[simp] theorem State.setDraws_host (n : Nat) : (s.setDraws n).host = s.host := rfl
@[simp] theorem State.setDraws_plan (n : Nat) : (s.setDraws n).plan = s.plan := rfl
@[simp] theorem State.setDraws_picks (n : Nat) : (s.setDraws n).picks = s.picks := rfl
@[simp] theorem State.setDraws_rnd (n : Nat) : (s.setDraws n).rnd = s.rnd := rfl
@[simp] theorem State.setDraws_draws (n : Nat) : (s.setDraws n).draws = n := rfl

/-! `State.setCore`, and the core seen through the updates of the inputs beside it. -/

@[simp] theorem State.setCore_toCoreState (c : CoreState) : (s.setCore c).toCoreState = c := rfl
@[simp] theorem State.setCore_host (c : CoreState) : (s.setCore c).host = s.host := rfl
@[simp] theorem State.setCore_plan (c : CoreState) : (s.setCore c).plan = s.plan := rfl
@[simp] theorem State.setCore_picks (c : CoreState) : (s.setCore c).picks = s.picks := rfl
@[simp] theorem State.setCore_rnd (c : CoreState) : (s.setCore c).rnd = s.rnd := rfl
@[simp] theorem State.setCore_draws (c : CoreState) : (s.setCore c).draws = s.draws := rfl
@[simp] theorem State.toCoreState_setHost (ops : List HostOp) : (s.setHost ops).toCoreState = s.toCoreState := rfl
@[simp] theorem State.toCoreState_setPlan (p : HostPlan) : (s.setPlan p).toCoreState = s.toCoreState := rfl
@[simp] theorem State.toCoreState_setPicks (n : Nat) : (s.setPicks n).toCoreState = s.toCoreState := rfl
@[simp] theorem State.toCoreState_withRnd (x : Option Byte) : (s.withRnd x).toCoreState = s.toCoreState := rfl
@[simp] theorem State.toCoreState_setDraws (n : Nat) : (s.setDraws n).toCoreState = s.toCoreState := rfl

@[simp] theorem State.chosen_toCoreState : s.chosen.toCoreState = s.toCoreState := by
  unfold State.chosen; split <;> rfl
@[simp] theorem State.chosen_plan : s.chosen.plan = s.plan := by unfold State.chosen; split <;> rfl
@[simp] theorem State.chosen_rnd : s.chosen.rnd = s.rnd := by unfold State.chosen; split <;> rfl
@[simp] theorem State.chosen_draws : s.chosen.draws = s.draws := by unfold State.chosen; split <;> rfl
@[simp] theorem State.chosen_host : s.chosen.host = s.host.tail := by
  unfold State.chosen
  split
  · next h => simp [h]
  · next h _ => simp [h]
  · next h _ => simp [h]

/-! `CoreState.withoutInputs` and the reset state. -/

@[simp] theorem CoreState.withoutInputs_toCoreState (c : CoreState) : c.withoutInputs.toCoreState = c := rfl
@[simp] theorem CoreState.withoutInputs_host (c : CoreState) : c.withoutInputs.host = [] := rfl
@[simp] theorem CoreState.withoutInputs_plan (c : CoreState) : c.withoutInputs.plan = .anything := rfl
@[simp] theorem CoreState.withoutInputs_picks (c : CoreState) : c.withoutInputs.picks = 0 := rfl
@[simp] theorem CoreState.withoutInputs_rnd (c : CoreState) : c.withoutInputs.rnd = none := rfl
@[simp] theorem CoreState.withoutInputs_draws (c : CoreState) : c.withoutInputs.draws = 0 := rfl
@[simp] theorem State.reset_toCoreState : State.reset.toCoreState = CoreState.reset := rfl
@[simp] theorem CoreState.reset_v : CoreState.reset.v = Vector.replicate 16 0 := rfl
@[simp] theorem CoreState.reset_i : CoreState.reset.i = 0 := rfl
@[simp] theorem CoreState.reset_pc : CoreState.reset.pc = Config.resetPc := rfl
@[simp] theorem CoreState.reset_stack : CoreState.reset.stack = Vector.replicate Config.stackDepth 0 := rfl
@[simp] theorem CoreState.reset_sp : CoreState.reset.sp = 0 := rfl
@[simp] theorem CoreState.reset_dt : CoreState.reset.dt = 0 := rfl
@[simp] theorem CoreState.reset_st : CoreState.reset.st = 0 := rfl
@[simp] theorem CoreState.reset_mem : CoreState.reset.mem = [] := rfl
@[simp] theorem CoreState.reset_fb : CoreState.reset.fb = Vector.replicate Config.screenH (Vector.replicate Config.screenW false) := rfl
@[simp] theorem CoreState.reset_key : CoreState.reset.key = Vector.replicate Config.numKeys false := rfl

/-! Register reads. -/

/-- A register write is seen by a read of that register and by no other (R21). -/
@[simp] theorem State.reg_setReg (r q : Reg) (b : Byte) : (s.setReg r b).reg q = if q = r then b else s.reg q := by
  simp only [State.reg, State.setReg, Fin.getElem_fin, Vector.getElem_set, Fin.ext_iff, eq_comm]

@[simp] theorem State.reg_setPc (a : Word) (q : Reg) : (s.setPc a).reg q = s.reg q := rfl
@[simp] theorem State.reg_setI (a : Word) (q : Reg) : (s.setI a).reg q = s.reg q := rfl
@[simp] theorem State.reg_setStack (k : Vector Word Config.stackDepth) (d : Fin (Config.stackDepth + 1)) (q : Reg) : (s.setStack k d).reg q = s.reg q := rfl
@[simp] theorem State.reg_setDt (b : Byte) (q : Reg) : (s.setDt b).reg q = s.reg q := rfl
@[simp] theorem State.reg_setSt (b : Byte) (q : Reg) : (s.setSt b).reg q = s.reg q := rfl
@[simp] theorem State.reg_setMem (m : Memory) (q : Reg) : (s.setMem m).reg q = s.reg q := rfl
@[simp] theorem State.reg_setFb (f : Fb) (q : Reg) : (s.setFb f).reg q = s.reg q := rfl
@[simp] theorem State.reg_setKeys (k : Vector Bool Config.numKeys) (q : Reg) : (s.setKeys k).reg q = s.reg q := rfl
@[simp] theorem State.reg_setHost (ops : List HostOp) (q : Reg) : (s.setHost ops).reg q = s.reg q := rfl
@[simp] theorem State.reg_setPlan (p : HostPlan) (q : Reg) : (s.setPlan p).reg q = s.reg q := rfl
@[simp] theorem State.reg_setPicks (n : Nat) (q : Reg) : (s.setPicks n).reg q = s.reg q := rfl
@[simp] theorem State.reg_withRnd (x : Option Byte) (q : Reg) : (s.withRnd x).reg q = s.reg q := rfl
@[simp] theorem State.reg_setDraws (n : Nat) (q : Reg) : (s.setDraws n).reg q = s.reg q := rfl

@[simp] theorem State.reg_setV (v : Vector Byte 16) (q : Reg) : (s.setV v).reg q = v[q] := rfl

/-! Memory reads. -/

@[simp] theorem State.byte_setPc (a : Word) (addr : Nat) : (s.setPc a).byte addr = s.byte addr := rfl
@[simp] theorem State.byte_setI (a : Word) (addr : Nat) : (s.setI a).byte addr = s.byte addr := rfl
@[simp] theorem State.byte_setV (v : Vector Byte 16) (addr : Nat) : (s.setV v).byte addr = s.byte addr := rfl
@[simp] theorem State.byte_setReg (r : Reg) (b : Byte) (addr : Nat) : (s.setReg r b).byte addr = s.byte addr := rfl
@[simp] theorem State.byte_setStack (k : Vector Word Config.stackDepth) (d : Fin (Config.stackDepth + 1)) (addr : Nat) : (s.setStack k d).byte addr = s.byte addr := rfl
@[simp] theorem State.byte_setDt (b : Byte) (addr : Nat) : (s.setDt b).byte addr = s.byte addr := rfl
@[simp] theorem State.byte_setSt (b : Byte) (addr : Nat) : (s.setSt b).byte addr = s.byte addr := rfl
@[simp] theorem State.byte_setFb (f : Fb) (addr : Nat) : (s.setFb f).byte addr = s.byte addr := rfl
@[simp] theorem State.byte_setKeys (k : Vector Bool Config.numKeys) (addr : Nat) : (s.setKeys k).byte addr = s.byte addr := rfl
@[simp] theorem State.byte_setHost (ops : List HostOp) (addr : Nat) : (s.setHost ops).byte addr = s.byte addr := rfl
@[simp] theorem State.byte_setPlan (p : HostPlan) (addr : Nat) : (s.setPlan p).byte addr = s.byte addr := rfl
@[simp] theorem State.byte_setPicks (n : Nat) (addr : Nat) : (s.setPicks n).byte addr = s.byte addr := rfl
@[simp] theorem State.byte_withRnd (x : Option Byte) (addr : Nat) : (s.withRnd x).byte addr = s.byte addr := rfl
@[simp] theorem State.byte_setDraws (n : Nat) (addr : Nat) : (s.setDraws n).byte addr = s.byte addr := rfl

@[simp] theorem State.byte_setMem (m : Memory) (a : Nat) : (s.setMem m).byte a = Memory.read m a := rfl

end Sys2Proof.Machine
end

