-- ==== Sys2Proof/Laws/Ops.lean ====
section
/-! SUPPORT. One lemma per shared operation that says everything it can do; later proofs cite these. -/

namespace Sys2Proof.Machine

variable {s t : State}

/-! Committing and raising. -/

theorem complete_eq (s : State) : complete s = .next (s.setPc (s.pc + 2)) := rfl

theorem complete_next_iff : complete s = .next t ↔ t = s.setPc (s.pc + 2) := by
  simp [complete, State.npc, eq_comm]

theorem jumpTo_next_iff {a : Word} : jumpTo a s = .next t ↔ t = s.setPc a := by
  simp [jumpTo, eq_comm]

/-- A skip moves `pc` by 4 or by 2 (R103). -/
theorem skipIf_eq (c : Bool) (s : State) : skipIf c s = .next (s.setPc (s.pc + if c then 4 else 2)) := by
  cases c
  · rfl
  · simp [skipIf, State.npc, BitVec.add_assoc]

@[simp] theorem raise_ne_next (c : Fault) : (raise c : Result) ≠ .next t := by simp [raise]

theorem raise_eq_fault_iff {c d : Fault} : (raise c : Result) = .fault d ↔ c = d := by simp [raise]

/-- A range-checked body runs when its bytes all exist, else the whole instruction is refused its access (R57, R238). -/
theorem withRange_pos {w : Word} {n : Nat} {body : Result} (h : n = 0 ∨ s.i.toNat + n ≤ 4096) :
    withRange w n s body = body := if_pos h

theorem withRange_neg {w : Word} {n : Nat} {body : Result} (h : ¬ (n = 0 ∨ s.i.toNat + n ≤ 4096)) :
    withRange w n s body = .fault (.memoryOutOfRange s.pc (some w) s.i) := if_neg h

theorem withRange_next_iff {w : Word} {n : Nat} {body : Result} :
    withRange w n s body = .next t ↔ (n = 0 ∨ s.i.toNat + n ≤ 4096) ∧ body = .next t := by
  by_cases h : n = 0 ∨ s.i.toNat + n ≤ 4096
  · simp [withRange_pos h, h]
  · simp [withRange_neg h, h]

/-- The same for a body that completes: the next state is `u` with `pc` moved past the instruction. -/
theorem withRange_complete_iff {w : Word} {n : Nat} {u : State} :
    withRange w n s (complete u) = .next t ↔ (n = 0 ∨ s.i.toNat + n ≤ 4096) ∧ t = u.setPc (u.pc + 2) := by
  rw [withRange_next_iff, complete_next_iff]

theorem withRange_fault_iff {w : Word} {n : Nat} {body : Result} {c : Fault} :
    withRange w n s body = .fault c ↔
      (n = 0 ∨ s.i.toNat + n ≤ 4096) ∧ body = .fault c ∨
      ¬ (n = 0 ∨ s.i.toNat + n ≤ 4096) ∧ c = .memoryOutOfRange s.pc (some w) s.i := by
  by_cases h : n = 0 ∨ s.i.toNat + n ≤ 4096
  · simp [withRange_pos h, h]
  · simp [withRange_neg h, h, eq_comm]

/-! The stack. -/

theorem push_full {a : Word} (h : s.sp.val = 16) : s.push a = none := by
  simp [State.push, h]

/-- A push into a stack with room (R26). -/
theorem push_room {a : Word} (h : s.sp.val < 16) :
    s.push a = some (s.setStack (s.stack.set s.sp.val a) ⟨s.sp.val + 1, Nat.succ_lt_succ h⟩) := dif_pos h

theorem pop_empty (h : s.sp.val = 0) : s.pop = none := by
  simp [State.pop, h]

/-- A pop from a stack with an entry (R26). -/
theorem pop_entry (h : 0 < s.sp.val) :
    s.pop = some (s.stack[s.sp.val - 1]'(by omega), s.setStack s.stack ⟨s.sp.val - 1, by omega⟩) := dif_pos h

/-- The depth is at most 16 (R26). -/
theorem sp_le (s : State) : s.sp.val ≤ 16 := Nat.lt_succ_iff.1 s.sp.isLt

/-- A push is full or has room: everything it can do (R26). -/
theorem push_cases (s : State) (a : Word) :
    (s.sp.val = 16 ∧ s.push a = none) ∨
    ∃ h : s.sp.val < 16,
      s.push a = some (s.setStack (s.stack.set s.sp.val a) ⟨s.sp.val + 1, Nat.succ_lt_succ h⟩) := by
  rcases Nat.lt_or_ge s.sp.val 16 with h | h
  · exact .inr ⟨h, push_room h⟩
  · exact .inl ⟨le_antisymm (sp_le s) h, push_full (le_antisymm (sp_le s) h)⟩

/-- A pop finds an empty stack or takes the top entry: everything it can do (R26). -/
theorem pop_cases (s : State) :
    (s.sp.val = 0 ∧ s.pop = none) ∨
    ∃ h : 0 < s.sp.val,
      s.pop = some (s.stack[s.sp.val - 1]'(by omega), s.setStack s.stack ⟨s.sp.val - 1, by omega⟩) := by
  rcases Nat.eq_zero_or_pos s.sp.val with h | h
  · exact .inl ⟨h, pop_empty h⟩
  · exact .inr ⟨h, pop_entry h⟩

/-- The stack does not depend on the random input or on the host's script. -/
theorem push_withRnd (s : State) (a : Word) (r : Option Byte) :
    (s.withRnd r).push a = (s.push a).map fun t => t.withRnd r := by
  rcases push_cases s a with ⟨h, hp⟩ | ⟨h, hp⟩
  · rw [hp, push_full (s := s.withRnd r) h]; rfl
  · rw [hp, push_room (s := s.withRnd r) h]; rfl

theorem push_setHost (s : State) (a : Word) (ops : List HostOp) :
    (s.setHost ops).push a = (s.push a).map fun t => t.setHost ops := by
  rcases push_cases s a with ⟨h, hp⟩ | ⟨h, hp⟩
  · rw [hp, push_full (s := s.setHost ops) h]; rfl
  · rw [hp, push_room (s := s.setHost ops) h]; rfl

theorem pop_withRnd (s : State) (r : Option Byte) :
    (s.withRnd r).pop = s.pop.map fun q => (q.1, q.2.withRnd r) := by
  rcases pop_cases s with ⟨h, hp⟩ | ⟨h, hp⟩
  · rw [hp, pop_empty (s := s.withRnd r) h]; rfl
  · rw [hp, pop_entry (s := s.withRnd r) h]; rfl

theorem pop_setHost (s : State) (ops : List HostOp) :
    (s.setHost ops).pop = s.pop.map fun q => (q.1, q.2.setHost ops) := by
  rcases pop_cases s with ⟨h, hp⟩ | ⟨h, hp⟩
  · rw [hp, pop_empty (s := s.setHost ops) h]; rfl
  · rw [hp, pop_entry (s := s.setHost ops) h]; rfl

/-! Register blocks and operands. -/

theorem regBlock_length (x : Reg) (s : State) : (regBlock x s).length = x.val + 1 := by
  have := x.isLt
  simp only [regBlock, List.length_map, List.length_take, List.length_finRange]; omega

theorem regBlock_getElem (x k : Reg) (s : State) (h : k ≤ x) : (regBlock x s)[k.val]? = some (s.reg k) := by
  have hk := k.isLt
  have hx : k.val ≤ x.val := h
  have : k.val < x.val + 1 := by omega
  simp [regBlock, this]

/-- The bytes an instruction reads through `I` (R166). -/
theorem loadBytes_getElem (s : State) (n k : Nat) :
    (s.loadBytes n)[k]? = if k < n then some (s.byte (s.i.toNat + k)) else none := by
  split
  · rename_i h; simp [State.loadBytes, Memory.readList, State.byte, h]
  · rename_i h; simp [State.loadBytes, Memory.readList, not_lt.1 h]

theorem loadBytes_length (s : State) (n : Nat) : (s.loadBytes n).length = n := by
  simp [State.loadBytes, Memory.readList]

theorem loadBlock_getElem (x k : Reg) (s : State) :
    (loadBlock x s)[k] = if k ≤ x then s.byte (s.i.toNat + k.val) else s.reg k := by
  simp [loadBlock]

theorem keyNumber_of_le {a : Byte} {k : Reg} (h : a.toNat = k.val) : keyNumber a = some k := by
  have hk := k.isLt
  simp only [keyNumber, Config.numKeys]
  rw [dif_pos (by omega)]
  exact congrArg some (Fin.ext h)

theorem keyNumber_of_gt {a : Byte} (h : a.toNat > 15) : keyNumber a = none :=
  dif_neg (by simp only [Config.numKeys]; omega)

/-- No key is down: `Fx0A` finds none (R192). -/
theorem lowestPressed_none_iff : lowestPressed s = none ↔ ∀ k, s.pressed k = false := by
  simp [lowestPressed, List.find?_eq_none]

/-- The key `Fx0A` finds is down, and no lower one is (R192). -/
theorem lowestPressed_eq_some {m : Reg} (hm : s.pressed m = true) (hlow : ∀ k, k < m → s.pressed k = false) :
    lowestPressed s = some m := by
  cases hl : lowestPressed s with
  | none => simp [lowestPressed_none_iff.1 hl m] at hm
  | some q =>
    have hq : s.pressed q = true := by simpa using List.find?_some hl
    have hge : ¬ q < m := fun hlt => by simp [hlow q hlt] at hq
    have hle : ¬ m < q := by
      intro hlt
      obtain ⟨-, as, bs, hsplit, has⟩ := List.find?_eq_some_iff_append.1 hl
      have hsort : (as ++ q :: bs).Pairwise (· < ·) := hsplit ▸ List.pairwise_lt_finRange 16
      have hmem : m ∈ as ++ q :: bs := hsplit ▸ List.mem_finRange m
      rcases List.mem_append.1 hmem with h | h
      · simpa [hm] using has m h
      · rcases List.mem_cons.1 h with rfl | h
        · exact absurd hlt (lt_irrefl _)
        · exact absurd ((List.pairwise_cons.1 (List.pairwise_append.1 hsort).2.1).1 m h) (not_lt.2 hlt.le)
    exact congrArg some (le_antisymm (not_lt.1 hle) (not_lt.1 hge))

/-! Flags. -/

theorem flagByte_eq (c : Bool) : flagByte c = if c then 1 else 0 := rfl

theorem flagByte_eq_one_iff (c : Bool) : flagByte c = 1 ↔ c = true := by cases c <;> decide

/-- Result and flag after the sum and the differences: the flag is written last (R143). -/
theorem writeResultFlag_flagStands {op : FlagOp} (h : Config.vfCollision op = .resultThenFlag) (x : Reg) (r f : Byte)
    (s : State) : writeResultFlag op x r f s = (s.setReg x r).setReg VF f := by
  simp [writeResultFlag, h]

/-- Result and flag after the shifts: the result is written last (R143). -/
theorem writeResultFlag_resultStands {op : FlagOp} (h : Config.vfCollision op = .flagThenResult) (x : Reg) (r f : Byte)
    (s : State) : writeResultFlag op x r f s = (s.setReg VF f).setReg x r := by
  simp [writeResultFlag, h]

/-! The fetch. -/

theorem fetch_outside (h : s.pc.toNat > 0xFFE) : fetch s = none := if_neg (by simp only [Config.memSize]; omega)

theorem fetch_inside (h : s.pc.toNat ≤ 0xFFE) : fetch s = some (s.wordAt s.pc.toNat) :=
  if_pos (by simp only [Config.memSize]; omega)

@[simp] theorem endCycle_next (t : State) : endCycle (.next t) = .next (t.withRnd none) := rfl

@[simp] theorem endCycle_fault (c : Fault) : endCycle (.fault c) = .fault c := rfl

/-- A cycle ends in a next state exactly when its instruction does, and keeps no input (R32). -/
theorem endCycle_next_iff {r : Result} : endCycle r = .next t ↔ ∃ u, r = .next u ∧ t = u.withRnd none := by
  cases r <;> simp [endCycle, eq_comm]

theorem endCycle_fault_iff {r : Result} {c : Fault} : endCycle r = .fault c ↔ r = .fault c := by cases r <;> simp [endCycle]

theorem endCycle_refused_iff {r : Result} {q : Refusal} : endCycle r = .refused q ↔ r = .refused q := by
  cases r <;> simp [endCycle]

/-- The three things a cycle can do (R100, R241). -/
theorem advance_cases (rnd : Option Byte) (s : State) :
    (s.pc.toNat > 0xFFE ∧ advance rnd s = .fault (.memoryOutOfRange s.pc none s.pc)) ∨
    (s.pc.toNat ≤ 0xFFE ∧ (∃ e, decodeWord (s.wordAt s.pc.toNat) = .error e) ∧
      advance rnd s = .fault (.unknownOpcode s.pc (s.wordAt s.pc.toNat))) ∨
    (s.pc.toNat ≤ 0xFFE ∧ ∃ i, decodeWord (s.wordAt s.pc.toNat) = .ok i ∧
      advance rnd s = endCycle (exec i (s.withRnd rnd))) := by
  by_cases h : s.pc.toNat ≤ 0xFFE
  · right
    cases hd : decodeWord (s.wordAt s.pc.toNat) with
    | error e => left; exact ⟨h, ⟨e, rfl⟩, by simp [advance, fetch_inside h, hd, raise]⟩
    | ok i => right; exact ⟨h, i, rfl, by simp [advance, fetch_inside h, hd]⟩
  · have h' : s.pc.toNat > 0xFFE := by omega
    left; exact ⟨h', by simp [advance, fetch_outside h', raise]⟩

end Sys2Proof.Machine
end

