-- ==== Sys2Proof/Laws/Display.lean ====
section
/-! SUPPORT. The framebuffer: what one toggle and a whole list of toggles do to each cell. -/

namespace Sys2Proof.Machine

/-- Framebuffers with the same cells are equal. -/
theorem Fb.ext_pixel {f g : Fb} (h : ∀ x y, Fb.pixel f x y = Fb.pixel g x y) : f = g := by
  refine Vector.ext fun y hy => Vector.ext fun x hx => ?_
  simpa [Fb.pixel] using h ⟨x, hx⟩ ⟨y, hy⟩

theorem darkFb_pixel (x : Fin Config.screenW) (y : Fin Config.screenH) : Fb.pixel darkFb x y = false := by
  simp [Fb.pixel, darkFb]

/-- One toggle flips its own cell and no other, and remembers whether that cell was lit (R181). -/
theorem xorCell_pixel (acc : Fb × Bool) (c : Fin Config.screenW × Fin Config.screenH) (x : Fin Config.screenW)
    (y : Fin Config.screenH) :
    Fb.pixel (xorCell acc c).1 x y = (Fb.pixel acc.1 x y ^^ decide ((x, y) = c)) := by
  obtain ⟨cx, cy⟩ := c
  simp only [xorCell, Fb.pixel, Fin.getElem_fin, Vector.getElem_set, Prod.mk.injEq]
  by_cases hy : cy.val = y.val
  · by_cases hx : cx.val = x.val
    · have hy' := Fin.ext hy
      have hx' := Fin.ext hx
      subst hy' hx'
      simp
    · have : ¬ x = cx := fun e => hx (by rw [e])
      have hy' := Fin.ext hy
      subst hy'
      simp [hx, this]
  · have : ¬ y = cy := fun e => hy (by rw [e])
    simp [hy, this]

theorem xorCell_collision (acc : Fb × Bool) (c : Fin Config.screenW × Fin Config.screenH) :
    (xorCell acc c).2 = (acc.2 || Fb.pixel acc.1 c.1 c.2) := rfl

/-- Toggling distinct cells flips each of them once; a collision is a cell of the list that was lit (R181). -/
theorem foldl_xorCell (cs : List (Fin Config.screenW × Fin Config.screenH)) (hnd : cs.Nodup) (acc : Fb × Bool) :
    (∀ x y, Fb.pixel (cs.foldl xorCell acc).1 x y = (Fb.pixel acc.1 x y ^^ decide ((x, y) ∈ cs))) ∧
    ((cs.foldl xorCell acc).2 = true ↔ acc.2 = true ∨ ∃ c ∈ cs, Fb.pixel acc.1 c.1 c.2 = true) := by
  induction cs generalizing acc with
  | nil => simp
  | cons c cs ih =>
    obtain ⟨hc, hnd⟩ := List.nodup_cons.1 hnd
    obtain ⟨ihp, ihc⟩ := ih hnd (xorCell acc c)
    constructor
    · intro x y
      rw [List.foldl_cons, ihp, xorCell_pixel]
      by_cases hxc : (x, y) = c
      · subst hxc; simp [hc]
      · simp [hxc]
    · rw [List.foldl_cons, ihc, xorCell_collision]
      have hsame : ∀ d ∈ cs, Fb.pixel (xorCell acc c).1 d.1 d.2 = Fb.pixel acc.1 d.1 d.2 := by
        intro d hd
        rw [xorCell_pixel]
        have : (d.1, d.2) ≠ c := fun e => hc (e ▸ hd)
        simp [this]
      simp only [Bool.or_eq_true, List.mem_cons, exists_eq_or_imp, or_assoc]
      refine or_congr_right (or_congr_right ?_)
      exact exists_congr fun d => and_congr_right fun hd => by rw [hsame d hd]

/-- The cells of one sprite row (R182). -/
theorem mem_spriteRow {b : Byte} {vx py : Nat} {c : Fin Config.screenW × Fin Config.screenH} :
    c ∈ spriteRow b vx py ↔ ∃ col, col < 8 ∧ b.getLsbD (7 - col) = true ∧ c = (wrapX (vx + col), wrapY py) := by
  simp only [spriteRow, List.mem_map, List.mem_filter, List.mem_range, and_assoc, eq_comm]

/-- The cells of a whole sprite (R181, R182). -/
theorem mem_spriteCells {bs : List Byte} {vx vy : Nat} {c : Fin Config.screenW × Fin Config.screenH} :
    c ∈ spriteCells bs vx vy ↔ ∃ row col b, bs[row]? = some b ∧ col < 8 ∧ b.getLsbD (7 - col) = true ∧
      c = (wrapX (vx + col), wrapY (vy + row)) := by
  induction bs generalizing vy with
  | nil => simp [spriteCells]
  | cons b bs ih =>
    rw [spriteCells, List.mem_append, mem_spriteRow, ih]
    constructor
    · rintro (⟨col, hcol, hb, rfl⟩ | ⟨row, col, d, hd, hcol, hb, rfl⟩)
      · exact ⟨0, col, b, rfl, hcol, hb, rfl⟩
      · exact ⟨row + 1, col, d, by simpa using hd, hcol, hb, by rw [Nat.add_right_comm, Nat.add_assoc]⟩
    · rintro ⟨row, col, d, hd, hcol, hb, rfl⟩
      cases row with
      | zero => exact .inl ⟨col, hcol, by simpa using (by simpa using hd : b = d) ▸ hb, rfl⟩
      | succ row => exact .inr ⟨row, col, d, by simpa using hd, hcol, hb, by rw [Nat.add_right_comm, Nat.add_assoc]⟩

/-- A sprite is smaller than the screen in both directions, so it covers no cell twice (R181). -/
theorem spriteCells_nodup {bs : List Byte} (h : bs.length ≤ 32) (vx vy : Nat) : (spriteCells bs vx vy).Nodup := by
  induction bs generalizing vy with
  | nil => exact List.nodup_nil
  | cons b bs ih =>
    simp only [List.length_cons] at h
    refine List.nodup_append.2 ⟨?_, ih (by omega) _, ?_⟩
    · refine List.Nodup.map_on ?_ (List.nodup_range.filter _)
      intro c hc d hd heq
      simp only [List.mem_filter, List.mem_range] at hc hd
      simp only [wrapX, Prod.mk.injEq, Fin.mk.injEq, Config.screenW] at heq
      omega
    · intro c hc d hd heq
      obtain ⟨col, -, -, rfl⟩ := mem_spriteRow.1 hc
      obtain ⟨row, col', e, he, -, -, rfl⟩ := mem_spriteCells.1 hd
      have : row < bs.length := (List.getElem?_eq_some_iff.1 he).1
      simp only [wrapY, Prod.mk.injEq, Fin.mk.injEq, Config.screenH] at heq
      omega

end Sys2Proof.Machine
end

