-- ==== Sys2Proof/Laws/HostOps.lean ====
section
/-! SUPPORT. The host's operations, and everything one step can be. -/

namespace Sys2Proof.Machine

/-- A tick lowers a timer by one and never below zero (R216). -/
theorem tickDown_toNat (b : Byte) : (tickDown b).toNat = b.toNat - 1 := by
  have := b.isLt
  unfold tickDown
  split
  · omega
  · rw [BitVec.toNat_ofNat]; omega

@[simp] theorem replyOf_next (b : Bool) (t : State) : replyOf b (.next t) = .success b := rfl
@[simp] theorem replyOf_fault (b : Bool) (c : Fault) : replyOf b (.fault c) = .condition c := rfl
@[simp] theorem replyOf_refused (b : Bool) (r : Refusal) : replyOf b (.refused r) = .refusal r := rfl
@[simp] theorem stateAfter_next (s t : State) : stateAfter s (.next t) = t := rfl
@[simp] theorem stateAfter_fault (s : State) (c : Fault) : stateAfter s (.fault c) = s := rfl
@[simp] theorem stateAfter_refused (s : State) (r : Refusal) : stateAfter s (.refused r) = s := rfl
@[simp] theorem Reply.code_success (b : Bool) : (Reply.success b).code = some 0 := rfl
@[simp] theorem Reply.code_condition (c : Fault) : (Reply.condition c).code = some c.code := rfl
@[simp] theorem Reply.code_refusal (r : Refusal) : (Reply.refusal r).code = none := rfl

/-- No condition has the code of success (R231). -/
theorem Fault.code_pos (c : Fault) : 0 < c.code := by cases c <;> simp [Fault.code]

/-- What the host sees of one operation: the new state and a success, or the old state and the condition (R9, R212). -/
theorem hostStep_cases (op : HostOp) (s : State) :
    (∃ t, invoke op s = .next t ∧ hostStep op s = (t, .success (tone op s))) ∨
    (∃ c, invoke op s = .fault c ∧ hostStep op s = (s, .condition c)) ∨
    (∃ r, invoke op s = .refused r ∧ hostStep op s = (s, .refusal r)) := by
  cases h : invoke op s with
  | next t => exact .inl ⟨t, rfl, by simp [hostStep, h]⟩
  | fault c => exact .inr (.inl ⟨c, rfl, by simp [hostStep, h]⟩)
  | refused r => exact .inr (.inr ⟨r, rfl, by simp [hostStep, h]⟩)

/-- A session of one more operation. -/
theorem session_cons (op : HostOp) (ops : List HostOp) (s : State) :
    session (op :: ops) s =
      ((session ops (hostStep op s).1).1, (hostStep op s).2 :: (session ops (hostStep op s).1).2) := rfl

/-- The three things the next operation of a run can be: the oldest scripted one, a free choice, or a cycle with a free random
byte of a host that only advances (R211). -/
theorem operationBy_cases (choose : Nat → HostOp) (s : State) :
    (∃ op rest, s.host = op :: rest ∧ s.choice choose = some op ∧ s.chosen = s.setHost rest ∧
      operationBy choose s = invoke op (s.setHost rest)) ∨
    (s.host = [] ∧ s.plan = .anything ∧ s.choice choose = some (choose s.picks) ∧ s.chosen = s.setPicks (s.picks + 1) ∧
      operationBy choose s = invoke (choose s.picks) (s.setPicks (s.picks + 1))) ∨
    (s.host = [] ∧ s.plan = .advancing ∧ s.choice choose = none ∧ s.chosen = s ∧
      operationBy choose s = advance none s) := by
  cases hh : s.host with
  | cons op rest =>
    exact .inl ⟨op, rest, rfl, by simp [State.choice, hh], by simp [State.chosen, hh],
      by simp [operationBy, State.choice, State.chosen, hh, perform]⟩
  | nil =>
    cases hp : s.plan with
    | anything =>
      exact .inr (.inl ⟨rfl, rfl, by simp [State.choice, hh, hp], by simp [State.chosen, hh, hp],
        by simp [operationBy, State.choice, State.chosen, hh, hp, perform]⟩)
    | advancing =>
      exact .inr (.inr ⟨rfl, rfl, by simp [State.choice, hh, hp], by simp [State.chosen, hh, hp],
        by simp [operationBy, State.choice, State.chosen, hh, hp, perform]⟩)

/-- The same of one step of the machine. -/
theorem step_cases (s : State) :
    (∃ op rest, s.host = op :: rest ∧ step s = invoke op (s.setHost rest)) ∨
    (s.host = [] ∧ s.plan = .anything ∧ step s = invoke (Config.freeOp s.picks) (s.setPicks (s.picks + 1))) ∨
    (s.host = [] ∧ s.plan = .advancing ∧ step s = advance none s) := by
  rcases operationBy_cases Config.freeOp s with ⟨op, rest, h, -, -, e⟩ | ⟨h, p, -, -, e⟩ | ⟨h, p, -, -, e⟩
  · exact .inl ⟨op, rest, h, e⟩
  · exact .inr (.inl ⟨h, p, e⟩)
  · exact .inr (.inr ⟨h, p, e⟩)

/-- The tone of an operation depends on the core alone. -/
theorem tone_of_core {s u : State} (h : s.toCoreState = u.toCoreState) (op : HostOp) : tone op s = tone op u := by
  cases op <;> simp [tone, h]

/-- A turn that performs an operation the host named or chose is that operation as the host sees it. -/
theorem turnBy_of_choice {choose : Nat → HostOp} {op : HostOp} {s : State} (h : s.choice choose = some op) :
    turnBy choose s = hostStep op s.chosen := by
  simp [turnBy, State.afterCondition, operationBy, replyBy, hostStep, h, perform,
    tone_of_core (State.chosen_toCoreState s).symm op]

/-- A turn of a host that only advances. -/
theorem turnBy_of_advancing {choose : Nat → HostOp} {s : State} (h : s.choice choose = none) :
    turnBy choose s = (stateAfter s.chosen (advance none s.chosen), replyOf false (advance none s.chosen)) := by
  simp [turnBy, State.afterCondition, operationBy, replyBy, h, perform]

theorem turnsBy_succ (choose : Nat → HostOp) (n : Nat) (s : State) :
    turnsBy choose (n + 1) s =
      ((turnsBy choose n (turnBy choose s).1).1, (turnBy choose s).2 :: (turnsBy choose n (turnBy choose s).1).2) := rfl

/-- A step to a next state is a turn to it. -/
theorem turnBy_of_step {s t : State} (h : step s = .next t) : (turnBy Config.freeOp s).1 = t := by
  have h' : operationBy Config.freeOp s = .next t := h
  simp [turnBy, h']

/-- The results of a step are those of the operation it makes. -/
theorem nextReply_of_script {op : HostOp} {rest : List HostOp} {s : State} (h : s.host = op :: rest) :
    nextReply s = (hostStep op (s.setHost rest)).2 := by
  have hc : s.choice Config.freeOp = some op := by simp [State.choice, h]
  have hs : s.chosen = s.setHost rest := by simp [State.chosen, h]
  rw [← hs, ← turnBy_of_choice hc]; rfl

theorem scriptReplies_succ_of_next {s t : State} (n : Nat) (h : step s = .next t) :
    scriptReplies (n + 1) s = nextReply s :: scriptReplies n t := by
  have h' : nextOperation s = .next t := h
  simp only [scriptReplies, h']

/-- A run of no steps, and a run that begins with a step to a next state. -/
theorem run_zero (s : State) : Host.Core.run Sys2Proof.core 0 s = .next s := rfl

theorem run_succ (M : Host.Core) {s t : M.State} (n : Nat) (h : M.step s = .next t) : M.run (n + 1) s = M.run n t := by
  simp only [Host.Core.run, h]

theorem run_succ_of_next {s t : State} (n : Nat) (h : step s = .next t) :
    Host.Core.run Sys2Proof.core (n + 1) s = Host.Core.run Sys2Proof.core n t := run_succ Sys2Proof.core n h

/-- `load_rom` copies or raises (R213). -/
theorem opLoadRom_fits {bytes : List Byte} (h : bytes.length ≤ 3584) (s : State) :
    opLoadRom bytes s = .next (s.setMem (Memory.writeList s.mem 0x200 bytes)) :=
  if_neg (by simp only [Config.loadAddr, Config.memSize]; omega)

theorem opLoadRom_tooLarge {bytes : List Byte} (h : bytes.length > 3584) (s : State) :
    opLoadRom bytes s = .fault (.outOfMemory bytes.length) :=
  if_pos (by simp only [Config.loadAddr, Config.memSize]; omega)

/-- Memory has its canonical form at reset. -/
theorem reset_mem_wf : Memory.wf State.reset.mem = true := rfl

end Sys2Proof.Machine
end

