-- ==== Sys2Proof/Laws/PerInstr.lean ====
section
/-! SUPPORT. One lemma per instruction: its operands are in range and its word carries the fixed bits of its row of the
opcode map (R84, R85). -/

namespace Sys2Proof.Laws

/-- Every instruction is well formed: its operand types are as wide as its fields (R83). -/
theorem Instr.wf_all (i : Instr) : i.wf = true := by
  cases i <;> simp [Instr.wf, addrOk, nibbleOk, immOk] <;> omega

/-- Well-formedness, and the row of the opcode map an instruction stands for. -/
def TableRow.Statement (i : Instr) : Prop := i.wf = true ∧ encode i &&& i.row.mask = i.row.code ∧ i.row ∈ opcodeRows

theorem TableRow.nop : TableRow.Statement (.nop) :=
  ⟨Instr.wf_all _, by decide, (by decide : Instr.row (.nop) ∈ opcodeRows)⟩

theorem TableRow.cls : TableRow.Statement (.cls) :=
  ⟨Instr.wf_all _, by decide, (by decide : Instr.row (.cls) ∈ opcodeRows)⟩

theorem TableRow.ret : TableRow.Statement (.ret) :=
  ⟨Instr.wf_all _, by decide, (by decide : Instr.row (.ret) ∈ opcodeRows)⟩

theorem TableRow.jp (nnn : Addr12) : TableRow.Statement (.jp nnn) :=
  ⟨Instr.wf_all _, formNNN_masked (by decide) nnn, (by decide : Instr.row (.jp 0) ∈ opcodeRows)⟩

theorem TableRow.call (nnn : Addr12) : TableRow.Statement (.call nnn) :=
  ⟨Instr.wf_all _, formNNN_masked (by decide) nnn, (by decide : Instr.row (.call 0) ∈ opcodeRows)⟩

theorem TableRow.seImm (x : Reg) (nn : Byte) : TableRow.Statement (.seImm x nn) :=
  ⟨Instr.wf_all _, formXNN_masked (by decide) x nn, (by decide : Instr.row (.seImm 0 0) ∈ opcodeRows)⟩

theorem TableRow.sneImm (x : Reg) (nn : Byte) : TableRow.Statement (.sneImm x nn) :=
  ⟨Instr.wf_all _, formXNN_masked (by decide) x nn, (by decide : Instr.row (.sneImm 0 0) ∈ opcodeRows)⟩

theorem TableRow.seReg (x y : Reg) : TableRow.Statement (.seReg x y) :=
  ⟨Instr.wf_all _, formXYN_masked (by decide) (by decide) x y, (by decide : Instr.row (.seReg 0 0) ∈ opcodeRows)⟩

theorem TableRow.ldImm (x : Reg) (nn : Byte) : TableRow.Statement (.ldImm x nn) :=
  ⟨Instr.wf_all _, formXNN_masked (by decide) x nn, (by decide : Instr.row (.ldImm 0 0) ∈ opcodeRows)⟩

theorem TableRow.addImm (x : Reg) (nn : Byte) : TableRow.Statement (.addImm x nn) :=
  ⟨Instr.wf_all _, formXNN_masked (by decide) x nn, (by decide : Instr.row (.addImm 0 0) ∈ opcodeRows)⟩

theorem TableRow.ldReg (x y : Reg) : TableRow.Statement (.ldReg x y) :=
  ⟨Instr.wf_all _, formXYN_masked (by decide) (by decide) x y, (by decide : Instr.row (.ldReg 0 0) ∈ opcodeRows)⟩

theorem TableRow.orReg (x y : Reg) : TableRow.Statement (.orReg x y) :=
  ⟨Instr.wf_all _, formXYN_masked (by decide) (by decide) x y, (by decide : Instr.row (.orReg 0 0) ∈ opcodeRows)⟩

theorem TableRow.andReg (x y : Reg) : TableRow.Statement (.andReg x y) :=
  ⟨Instr.wf_all _, formXYN_masked (by decide) (by decide) x y, (by decide : Instr.row (.andReg 0 0) ∈ opcodeRows)⟩

theorem TableRow.xorReg (x y : Reg) : TableRow.Statement (.xorReg x y) :=
  ⟨Instr.wf_all _, formXYN_masked (by decide) (by decide) x y, (by decide : Instr.row (.xorReg 0 0) ∈ opcodeRows)⟩

theorem TableRow.addReg (x y : Reg) : TableRow.Statement (.addReg x y) :=
  ⟨Instr.wf_all _, formXYN_masked (by decide) (by decide) x y, (by decide : Instr.row (.addReg 0 0) ∈ opcodeRows)⟩

theorem TableRow.subReg (x y : Reg) : TableRow.Statement (.subReg x y) :=
  ⟨Instr.wf_all _, formXYN_masked (by decide) (by decide) x y, (by decide : Instr.row (.subReg 0 0) ∈ opcodeRows)⟩

theorem TableRow.shr (x y : Reg) : TableRow.Statement (.shr x y) :=
  ⟨Instr.wf_all _, formXYN_masked (by decide) (by decide) x y, (by decide : Instr.row (.shr 0 0) ∈ opcodeRows)⟩

theorem TableRow.subnReg (x y : Reg) : TableRow.Statement (.subnReg x y) :=
  ⟨Instr.wf_all _, formXYN_masked (by decide) (by decide) x y, (by decide : Instr.row (.subnReg 0 0) ∈ opcodeRows)⟩

theorem TableRow.shl (x y : Reg) : TableRow.Statement (.shl x y) :=
  ⟨Instr.wf_all _, formXYN_masked (by decide) (by decide) x y, (by decide : Instr.row (.shl 0 0) ∈ opcodeRows)⟩

theorem TableRow.sneReg (x y : Reg) : TableRow.Statement (.sneReg x y) :=
  ⟨Instr.wf_all _, formXYN_masked (by decide) (by decide) x y, (by decide : Instr.row (.sneReg 0 0) ∈ opcodeRows)⟩

theorem TableRow.ldI (nnn : Addr12) : TableRow.Statement (.ldI nnn) :=
  ⟨Instr.wf_all _, formNNN_masked (by decide) nnn, (by decide : Instr.row (.ldI 0) ∈ opcodeRows)⟩

theorem TableRow.jpV0 (nnn : Addr12) : TableRow.Statement (.jpV0 nnn) :=
  ⟨Instr.wf_all _, formNNN_masked (by decide) nnn, (by decide : Instr.row (.jpV0 0) ∈ opcodeRows)⟩

theorem TableRow.rnd (x : Reg) (nn : Byte) : TableRow.Statement (.rnd x nn) :=
  ⟨Instr.wf_all _, formXNN_masked (by decide) x nn, (by decide : Instr.row (.rnd 0 0) ∈ opcodeRows)⟩

theorem TableRow.drw (x y : Reg) (n : Fin 16) : TableRow.Statement (.drw x y n) :=
  ⟨Instr.wf_all _, formXYN_masked_d1 (by decide) n.isLt x y, (by decide : Instr.row (.drw 0 0 0) ∈ opcodeRows)⟩

theorem TableRow.skp (x : Reg) : TableRow.Statement (.skp x) :=
  ⟨Instr.wf_all _, formX_masked (by decide) (by decide) x, (by decide : Instr.row (.skp 0) ∈ opcodeRows)⟩

theorem TableRow.sknp (x : Reg) : TableRow.Statement (.sknp x) :=
  ⟨Instr.wf_all _, formX_masked (by decide) (by decide) x, (by decide : Instr.row (.sknp 0) ∈ opcodeRows)⟩

theorem TableRow.ldFromDt (x : Reg) : TableRow.Statement (.ldFromDt x) :=
  ⟨Instr.wf_all _, formX_masked (by decide) (by decide) x, (by decide : Instr.row (.ldFromDt 0) ∈ opcodeRows)⟩

theorem TableRow.ldKey (x : Reg) : TableRow.Statement (.ldKey x) :=
  ⟨Instr.wf_all _, formX_masked (by decide) (by decide) x, (by decide : Instr.row (.ldKey 0) ∈ opcodeRows)⟩

theorem TableRow.ldDt (x : Reg) : TableRow.Statement (.ldDt x) :=
  ⟨Instr.wf_all _, formX_masked (by decide) (by decide) x, (by decide : Instr.row (.ldDt 0) ∈ opcodeRows)⟩

theorem TableRow.ldSt (x : Reg) : TableRow.Statement (.ldSt x) :=
  ⟨Instr.wf_all _, formX_masked (by decide) (by decide) x, (by decide : Instr.row (.ldSt 0) ∈ opcodeRows)⟩

theorem TableRow.addI (x : Reg) : TableRow.Statement (.addI x) :=
  ⟨Instr.wf_all _, formX_masked (by decide) (by decide) x, (by decide : Instr.row (.addI 0) ∈ opcodeRows)⟩

theorem TableRow.ldGlyph (x : Reg) : TableRow.Statement (.ldGlyph x) :=
  ⟨Instr.wf_all _, formX_masked (by decide) (by decide) x, (by decide : Instr.row (.ldGlyph 0) ∈ opcodeRows)⟩

theorem TableRow.ldBcd (x : Reg) : TableRow.Statement (.ldBcd x) :=
  ⟨Instr.wf_all _, formX_masked (by decide) (by decide) x, (by decide : Instr.row (.ldBcd 0) ∈ opcodeRows)⟩

theorem TableRow.storeRegs (x : Reg) : TableRow.Statement (.storeRegs x) :=
  ⟨Instr.wf_all _, formX_masked (by decide) (by decide) x, (by decide : Instr.row (.storeRegs 0) ∈ opcodeRows)⟩

theorem TableRow.loadRegs (x : Reg) : TableRow.Statement (.loadRegs x) :=
  ⟨Instr.wf_all _, formX_masked (by decide) (by decide) x, (by decide : Instr.row (.loadRegs 0) ∈ opcodeRows)⟩

end Sys2Proof.Laws
end

