-- ==== Sys2Proof/Tests/Slice0.lean ====
section
/-! SUPPORT. The model's own tests. Expected values are those of 95_test_vectors (T1 to T10, T-DEC to T-HOST) or hand
calculation from the rule named; the second half shows that the hypotheses of the statements can be met. -/

open Sys2Proof Sys2Proof.Machine

namespace Sys2Proof.Tests

/-! Well-formedness: each check accepts its boundary and refuses the next value. -/

theorem test_nibble_refused : nibbleOk 15 = true ∧ nibbleOk 16 = false := by decide
theorem test_imm_refused : immOk 255 = true ∧ immOk 256 = false := by decide
theorem test_addr_refused : addrOk 4095 = true ∧ addrOk 4096 = false := by decide
theorem test_key_index_refused : keyIndexOk 15 = true ∧ keyIndexOk 16 = false := by decide
theorem test_rom_refused : romFits 3584 = true ∧ romFits 3585 = false := by decide
theorem test_set_key_refused : (HostOp.setKey 15 true).wf = true ∧ (HostOp.setKey 16 true).wf = false := by decide
theorem test_load_rom_refused :
    (HostOp.loadRom (List.replicate 3584 0)).wf = true ∧ (HostOp.loadRom (List.replicate 3585 0)).wf = false := by
  simp only [HostOp.wf, List.length_replicate]; decide
theorem test_memory_form_refused :
    Memory.wf [(0x200, 1), (0x201, 2)] = true ∧ Memory.wf [(0x201, 1), (0x200, 2)] = false ∧
    Memory.wf [(0x200, 1), (0x200, 2)] = false ∧ Memory.wf [(0x200, 0)] = false ∧ Memory.wf [(0, 0xF0)] = false ∧
    Memory.wf [(0x1000, 1)] = false := by decide

/-! Decoding: one word per constructor, written out from R85 (nibbles `d1 d2 d3 d4`). -/

theorem test_decode_nop : Encodes 0b0000000000000000 .nop := rfl
theorem test_decode_cls : Encodes 0b0000000011100000 .cls := rfl
theorem test_decode_ret : Encodes 0b0000000011101110 .ret := rfl
theorem test_decode_jp : Encodes 0b0001101010111100 (.jp 0xABC) := rfl
theorem test_decode_call : Encodes 0b0010001100000000 (.call 0x300) := rfl
theorem test_decode_seImm : Encodes 0b0011101001000010 (.seImm 0xA 0x42) := rfl
theorem test_decode_sneImm : Encodes 0b0100001100101010 (.sneImm 3 0x2A) := rfl
theorem test_decode_seReg : Encodes 0b0101000100100000 (.seReg 1 2) := rfl
theorem test_decode_ldImm : Encodes 0b0110101001000010 (.ldImm 0xA 0x42) := rfl
theorem test_decode_addImm : Encodes 0b0111000100000010 (.addImm 1 2) := rfl
theorem test_decode_ldReg : Encodes 0b1000000100100000 (.ldReg 1 2) := rfl
theorem test_decode_orReg : Encodes 0b1000000100100001 (.orReg 1 2) := rfl
theorem test_decode_andReg : Encodes 0b1000000100100010 (.andReg 1 2) := rfl
theorem test_decode_xorReg : Encodes 0b1000000100100011 (.xorReg 1 2) := rfl
theorem test_decode_addReg : Encodes 0b1000101010110100 (.addReg 0xA 0xB) := rfl
theorem test_decode_subReg : Encodes 0b1000000100100101 (.subReg 1 2) := rfl
theorem test_decode_shr : Encodes 0b1000000111110110 (.shr 1 0xF) := rfl
theorem test_decode_subnReg : Encodes 0b1000000100100111 (.subnReg 1 2) := rfl
theorem test_decode_shl : Encodes 0b1000000111111110 (.shl 1 0xF) := rfl
theorem test_decode_sneReg : Encodes 0b1001101010110000 (.sneReg 0xA 0xB) := rfl
theorem test_decode_ldI : Encodes 0b1010001011110000 (.ldI 0x2F0) := rfl
theorem test_decode_jpV0 : Encodes 0b1011001100000000 (.jpV0 0x300) := rfl
theorem test_decode_rnd : Encodes 0b1100001100001111 (.rnd 3 0x0F) := rfl
theorem test_decode_drw : Encodes 0b1101000100101111 (.drw 1 2 15) := rfl
theorem test_decode_skp : Encodes 0b1110000110011110 (.skp 1) := rfl
theorem test_decode_sknp : Encodes 0b1110001010100001 (.sknp 2) := rfl
theorem test_decode_ldFromDt : Encodes 0b1111000100000111 (.ldFromDt 1) := rfl
theorem test_decode_ldKey : Encodes 0b1111001100001010 (.ldKey 3) := rfl
theorem test_decode_ldDt : Encodes 0b1111000100010101 (.ldDt 1) := rfl
theorem test_decode_ldSt : Encodes 0b1111000100011000 (.ldSt 1) := rfl
theorem test_decode_addI : Encodes 0b1111001000011110 (.addI 2) := rfl
theorem test_decode_ldGlyph : Encodes 0b1111010000101001 (.ldGlyph 4) := rfl
theorem test_decode_ldBcd : Encodes 0b1111010100110011 (.ldBcd 5) := rfl
theorem test_decode_storeRegs : Encodes 0b1111000101010101 (.storeRegs 1) := rfl
theorem test_decode_loadRegs : Encodes 0b1111000101100101 (.loadRegs 1) := rfl

/-- T-DEC: the words of no pattern. -/
theorem test_decode_unknown :
    ∀ w ∈ ([0x00E1, 0x0123, 0x5121, 0x8AB8, 0x8ABF, 0x9AB1, 0xE19F, 0xF175, 0xFFFF] : List Word),
      decodeWord w = .error (.unknownOpcode w) := by
  intro w h
  simp only [List.mem_cons, List.not_mem_nil, or_false] at h
  rcases h with rfl | rfl | rfl | rfl | rfl | rfl | rfl | rfl | rfl <;> rfl

/-- Bytes 12 34 are the word 1234 (T-DEC), and one byte is no instruction (R80). -/
theorem test_decode_byte_order :
    decodeBytes [0x12, 0x34, 0x56] = .ok (.jp 0x234, [0x56]) ∧ decodeBytes [0x12] = .error .truncated := ⟨rfl, rfl⟩
theorem test_decode_table_word : decodeTableWord 16 0xD12F = some (.drw 1 2 15) ∧ decodeTableWord 16 0x5121 = none := by decide

/-! One step. `after w s` places `w` at `pc` and steps. -/

/-- The state after one step that runs the word `w` at `pc`. -/
def after (w : Word) (s : State) : Option State :=
  match step (placeWord s w) with
  | .next t => some t
  | .fault _ | .refused _ => none

/-- The condition of one step that runs the word `w` at `pc`. -/
def stops (w : Word) (s : State) : Option Fault :=
  match step (placeWord s w) with
  | .fault c => some c
  | .next _ | .refused _ => none

/-- The reset state with `V1` and `V2`. -/
def regs12 (a b : Byte) : State := (State.reset.setReg 1 a).setReg 2 b

/-- The reset state with `VF` and `V1`. -/
def regsF1 (a b : Byte) : State := (State.reset.setReg VF a).setReg 1 b

/-- The reset state with `I` and `V0`. -/
def indexed (a : Word) (b : Byte) : State := (State.reset.setI a).setReg 0 b

/-- The reset state with one byte at 0x300, `I` there, and `V0`, `V1`. -/
def sprite (b v0 v1 : Byte) : State :=
  (((State.reset.setI 0x300).setMem [(0x300, b)]).setReg 0 v0).setReg 1 v1

/-- The reset state with only cell (0, 0) lit. -/
def litOrigin (s : State) : State := s.setFb (xorCell (darkFb, false) (0, 0)).1

/-- The reset state with a stack of depth `d` whose top entry is `a`. -/
def stacked (a : Word) (d : Fin 17) : State :=
  State.reset.setStack ((Vector.replicate 16 0).set (d.val - 1) a (by have := d.isLt; omega)) d

theorem test_nop : (after 0x0000 State.reset).map (·.pc) = some 0x202 := by decide
theorem test_nop_at_top : (after 0x0000 (State.reset.setPc 0xFFE)).map (·.pc) = some 0x1000 := by decide
theorem test_jp_odd : (after 0x1203 State.reset).map (·.pc) = some 0x203 := by decide
theorem test_jpV0 : (after 0xB300 ((State.reset.setReg 0 4).setReg 3 0x99)).map (·.pc) = some 0x304 := by decide
theorem test_jpV0_highest : (after 0xBFFF (State.reset.setReg 0 0xFF)).map (·.pc) = some 0x10FE := by decide
theorem test_call : (after 0x2300 State.reset).map (fun t => (t.pc, t.sp, t.stack[0])) = some (0x300, 1, 0x202) := by decide
theorem test_call_full : stops 0x2300 (stacked 0x202 16) = some (.stackOverflow 0x200 0x2300) := by decide
theorem test_ret : (after 0x00EE (stacked 0x202 1)).map (fun t => (t.pc, t.sp)) = some (0x202, 0) := by decide
theorem test_ret_empty : stops 0x00EE State.reset = some (.stackUnderflow 0x200 0x00EE) := by decide
theorem test_seImm : (after 0x332A (State.reset.setReg 3 0x2A)).map (·.pc) = some 0x204 := by decide
theorem test_seImm_differs : (after 0x332B (State.reset.setReg 3 0x2A)).map (·.pc) = some 0x202 := by decide
theorem test_sneImm : (after 0x432B (State.reset.setReg 3 0x2A)).map (·.pc) = some 0x204 := by decide
theorem test_sneImm_equal : (after 0x432A (State.reset.setReg 3 0x2A)).map (·.pc) = some 0x202 := by decide
theorem test_seReg : (after 0x5120 (regs12 7 7)).map (·.pc) = some 0x204 := by decide
theorem test_seReg_differs : (after 0x5120 (regs12 7 8)).map (·.pc) = some 0x202 := by decide
theorem test_sneReg : (after 0x9120 (regs12 7 8)).map (·.pc) = some 0x204 := by decide
theorem test_sneReg_equal : (after 0x9120 (regs12 7 7)).map (·.pc) = some 0x202 := by decide
theorem test_fetch_odd : ((after 0x6007 (State.reset.setPc 0x201)).map fun t => (t.pc, t.reg 0)) = some (0x203, 7) := by decide
theorem test_fetch_outside :
    (match advance none (State.reset.setPc 0xFFF) with | .fault c => some c | _ => none) =
      some (.memoryOutOfRange 0xFFF none 0xFFF) := by decide
theorem test_unknown_word : stops 0xFFFF State.reset = some (.unknownOpcode 0x200 0xFFFF) := by decide

theorem test_ldImm_vf : (after 0x6F07 State.reset).map (·.reg VF) = some 0x07 := by decide
theorem test_addImm_wraps : (after 0x7102 (regs12 0xFF 0)).map (fun t => (t.reg 1, t.reg VF)) = some (1, 0) := by decide
theorem test_ldReg : (after 0x8120 (regs12 0 0x33)).map (fun t => (t.reg 1, t.reg 2)) = some (0x33, 0x33) := by decide
theorem test_orReg : (after 0x8121 ((regs12 0xF0 0x0F).setReg VF 1)).map (fun t => (t.reg 1, t.reg VF)) = some (0xFF, 1) := by decide
theorem test_andReg : (after 0x8122 ((regs12 0xF0 0x3C).setReg VF 1)).map (fun t => (t.reg 1, t.reg VF)) = some (0x30, 1) := by decide
theorem test_xorReg : (after 0x8123 ((regs12 0xF0 0x3C).setReg VF 1)).map (fun t => (t.reg 1, t.reg VF)) = some (0xCC, 1) := by decide
theorem test_addReg_carry : (after 0x8124 (regs12 0xC8 0x64)).map (fun t => (t.reg 1, t.reg VF)) = some (0x2C, 1) := by decide
theorem test_addReg_flag_stands : (after 0x8F14 (regsF1 0xFF 2)).map (·.reg VF) = some 1 := by decide
theorem test_subReg_borrow : (after 0x8125 (regs12 0x0A 0x14)).map (fun t => (t.reg 1, t.reg VF)) = some (0xF6, 0) := by decide
theorem test_subReg_flag_stands : (after 0x8F15 (regsF1 3 5)).map (·.reg VF) = some 0 := by decide
theorem test_shr_ignores_y : (after 0x8126 (regs12 0x55 0xAA)).map (fun t => (t.reg 1, t.reg 2, t.reg VF)) = some (0x2A, 0xAA, 1) := by decide
theorem test_shr_result_stands : (after 0x8F06 (regsF1 7 0)).map (·.reg VF) = some 3 := by decide
theorem test_subnReg : (after 0x8127 (regs12 0x0A 0x14)).map (fun t => (t.reg 1, t.reg VF)) = some (0x0A, 1) := by decide
theorem test_subnReg_flag_stands : (after 0x8F17 (regsF1 5 3)).map (·.reg VF) = some 0 := by decide
theorem test_shl_ignores_y : (after 0x812E (regs12 0xAA 0x55)).map (fun t => (t.reg 1, t.reg 2, t.reg VF)) = some (0x54, 0x55, 1) := by decide
theorem test_shl_result_stands : (after 0x8F0E (regsF1 0x81 0)).map (·.reg VF) = some 2 := by decide
theorem test_rnd :
    (match step ((placeWord State.reset 0xC30F).setHost [.advance 0xA7]) with | .next t => some (t.reg 3) | _ => none) =
      some 0x07 := by decide

theorem test_ldI : (after 0xAFFF State.reset).map (·.i) = some 0x0FFF := by decide
theorem test_addI_wraps : (after 0xF21E ((State.reset.setI 0xFFFF).setReg 2 2)).map (fun t => (t.i, t.reg VF)) = some (1, 0) := by decide
theorem test_addI_past_memory : (after 0xF21E ((State.reset.setI 0x0FFF).setReg 2 1)).map (·.i) = some 0x1000 := by decide
theorem test_ldGlyph : (after 0xF429 (State.reset.setReg 4 0x0A)).map (·.i) = some 0x0032 := by decide
theorem test_ldGlyph_no_mask : (after 0xF029 (State.reset.setReg 0 0xFF)).map (·.i) = some 0x04FB := by decide
theorem test_ldBcd : (after 0xF033 (indexed 0x300 0xEA)).map (·.loadBytes 3) = some [2, 3, 4] := by decide
theorem test_ldBcd_outside : stops 0xF033 (indexed 0xFFE 0xEA) = some (.memoryOutOfRange 0x200 (some 0xF033) 0xFFE) := by decide
theorem test_storeRegs : (after 0xF155 ((indexed 0x400 0x11).setReg 1 0x22)).map (fun t => (t.loadBytes 3, t.i)) = some ([0x11, 0x22, 0], 0x400) := by decide
theorem test_storeRegs_outside : stops 0xF155 (indexed 0xFFF 0x11) = some (.memoryOutOfRange 0x200 (some 0xF155) 0xFFF) := by decide
theorem test_loadRegs_font : (after 0xF465 State.reset).map (fun t => (t.reg 0, t.reg 1, t.reg 4, t.reg 5)) = some (0xF0, 0x90, 0xF0, 0) := by decide
theorem test_loadRegs_outside : stops 0xF065 (indexed 0x1000 0) = some (.memoryOutOfRange 0x200 (some 0xF065) 0x1000) := by decide

theorem test_cls : (after 0x00E0 ((litOrigin State.reset).setReg VF 1)).map (fun t => (t.fb.pixel 0 0, t.reg VF)) = some (false, 1) := by decide
theorem test_drw_wraps :
    (after 0xD011 (sprite 0xC0 0x3F 0)).map (fun t => (t.fb.pixel 63 0, t.fb.pixel 0 0, t.fb.pixel 1 0, t.reg VF)) =
      some (true, true, false, 0) := by decide
theorem test_drw_collision :
    (after 0xD011 (litOrigin (sprite 0x80 0 0))).map (fun t => (t.fb.pixel 0 0, t.reg VF)) = some (false, 1) := by decide

/-- T-DRW: the start coordinates (70, 37) are reduced to pixel (6, 5), which the host sees as cell 326. -/
theorem test_drw_view :
    (after 0xD011 (sprite 0x80 0x46 0x25)).map (fun t => (frameView t 326, t.fb.pixel 6 5, frameView t 389)) =
      some (true, true, false) := by decide

theorem test_skp : (after 0xE29E ((State.reset.setReg 2 15).setKeys (State.reset.key.set 15 true))).map (·.pc) = some 0x204 := by decide
theorem test_skp_invalid : stops 0xE29E (State.reset.setReg 2 0x10) = some (.invalidKey (some (0x200, 0xE29E)) 0x10) := by decide
theorem test_sknp : (after 0xE2A1 (State.reset.setReg 2 5)).map (·.pc) = some 0x204 := by decide
theorem test_sknp_invalid : stops 0xE2A1 (State.reset.setReg 2 0xFF) = some (.invalidKey (some (0x200, 0xE2A1)) 0xFF) := by decide
theorem test_ldKey_waits : (after 0xF30A State.reset).map (fun t => (t.pc, t.reg 3)) = some (0x200, 0) := by decide
theorem test_ldKey_lowest :
    (after 0xF30A (State.reset.setKeys ((State.reset.key.set 7 true).set 9 true))).map (fun t => (t.pc, t.reg 3)) = some (0x202, 7) := by decide
theorem test_ldFromDt : (after 0xF107 (State.reset.setDt 0x3C)).map (fun t => (t.reg 1, t.dt)) = some (0x3C, 0x3C) := by decide
theorem test_ldDt : (after 0xF115 (State.reset.setReg 1 0x3C)).map (fun t => (t.dt, t.st)) = some (0x3C, 0) := by decide
theorem test_ldSt : (after 0xF118 (State.reset.setReg 1 2)).map (fun t => (t.dt, t.st)) = some (0, 2) := by decide

/-! Host operations (T-HOST). -/

theorem test_load_rom : (hostStep (.loadRom [0x12, 0x00]) State.reset).1.mem = [(0x200, 0x12)] := by decide
theorem test_load_rom_keeps_tail :
    (session [.loadRom [0xAA, 0xBB, 0xCC], .loadRom [1]] State.reset).1.mem = [(0x200, 1), (0x201, 0xBB), (0x202, 0xCC)] := by decide
theorem test_set_key_invalid : hostStep (.setKey 16 true) State.reset = (State.reset, .condition (.invalidKey none 16)) := rfl
theorem test_set_key_sets :
    ((session [.setKey 3 true, .setKey 3 true] State.reset).1.pressed 3, (session [.setKey 3 true, .setKey 3 false] State.reset).1.pressed 3) =
      (true, false) := by decide
/-- T9: `dt = 03`, `st = 01`; the tone comes with the first tick only. -/
theorem test_ticks :
    (session [.advanceTimers, .advanceTimers, .advanceTimers, .advanceTimers] ((State.reset.setDt 3).setSt 1)).2 =
      [.success true, .success false, .success false, .success false] ∧
    (session [.advanceTimers, .advanceTimers, .advanceTimers, .advanceTimers] ((State.reset.setDt 3).setSt 1)).1.dt = 0 := by decide
/-- R32: the tone is a result of the step that ticks, and the random byte of an `advance` is not kept. -/
theorem test_step_results :
    scriptReplies 2 ((State.reset.setSt 1).setHost [.advanceTimers, .advance 7]) = [.success true, .success false] ∧
    (match step ((placeWord State.reset 0xC3FF).setHost [.advance 7]) with | .next t => some (t.reg 3, t.rnd) | _ => none) =
      some (7, none) := by decide
/-- R217: the tick that takes `st` from 1 to 0 answers the tone; R141: a named random byte goes through the operation. -/
theorem test_operate :
    (operate .advanceTimers (State.reset.setSt 1).toCoreState).2 = .success true ∧
    (operate (.advance 0xA7) (placeWord State.reset 0xC30F).toCoreState).1.v[3] = 0x07 := by decide
theorem test_reset_restores_font : (hostStep .reset (State.reset.setMem [(0, 1), (0x200, 5)])).1.mem = [] := by decide
theorem test_condition_codes :
    [Fault.code (.outOfMemory 3585), Fault.code (.unknownOpcode 0 0), Fault.code (.stackUnderflow 0 0),
      Fault.code (.invalidKey none 16), Fault.code .registerIndexOutOfRange, Fault.code (.stackOverflow 0 0),
      Fault.code (.memoryOutOfRange 0 none 0)] = [1, 2, 3, 4, 5, 6, 7] := by decide

/-! The hypotheses of the statements can be met: one theorem per statement that has any, each clause at a boundary. -/

theorem witness_EncodeInvertsDecode : decodeWord 0xFF65 = .ok (.loadRegs 15) := rfl

theorem witness_DecoderAgreesWithOpcodeMap :
    decodeWord 0x00E0 = .ok .cls ∧ ∀ r ∈ opcodeRows, (0x00E1 : Word) &&& r.mask ≠ r.code := ⟨rfl, by decide⟩

/-- A fetch at the last legal address of a word of each kind, and at the first illegal one. -/
theorem witness_AdvanceIsOneCycle :
    (State.reset.setPc 0xFFF).pc.toNat > 0xFFE ∧ (State.reset.setPc 0xFFE).pc.toNat ≤ 0xFFE ∧
    (∃ w : Word, w.toNat = ((State.reset.setPc 0xFFE).byte 0xFFE).toNat * 256 + ((State.reset.setPc 0xFFE).byte 0xFFF).toNat ∧
      decodeWord w = .ok .nop) ∧
    (∃ w : Word, w.toNat = ((placeWord (State.reset.setPc 0xFFE) 0xFFFF).byte 0xFFE).toNat * 256 +
      ((placeWord (State.reset.setPc 0xFFE) 0xFFFF).byte 0xFFF).toNat ∧ ∀ r ∈ opcodeRows, w &&& r.mask ≠ r.code) :=
  ⟨by decide, by decide, ⟨0, by decide, rfl⟩, ⟨0xFFFF, by decide, by decide⟩⟩

theorem witness_StepRunsDecodedInstruction :
    (State.reset.setPc 0xFFE).pc.toNat ≤ 0xFFE ∧ decodeWord ((State.reset.setPc 0xFFE).wordAt 0xFFE) = .ok .nop ∧
    (State.reset.setPc 0xFFE).host = [] ∧ (State.reset.setPc 0xFFE).plan = .anything ∧
    ((State.reset.setPc 0xFFE).setPlan .advancing).plan = .advancing ∧
    ((State.reset.setPc 0xFFE).setHost [.advance 7]).host = [.advance 7] ∧
    ((State.reset.setPc 0xFFE).setHost [.advanceTimers, .reset]).host = [.advanceTimers, .reset] :=
  ⟨by decide, rfl, rfl, rfl, rfl, rfl, rfl⟩

theorem witness_PlacedInstructionRuns :
    Memory.wf State.reset.mem = true ∧ (State.reset.setPc 0xFFE).pc.toNat ≤ 0xFFE := by decide

theorem witness_UnknownWordRaisesUnknownOpcode :
    (placeWord State.reset 0x5121).pc.toNat ≤ 0xFFE ∧
    ∀ r ∈ opcodeRows, (placeWord State.reset 0x5121).wordAt (placeWord State.reset 0x5121).pc.toNat &&& r.mask ≠ r.code := by decide

theorem witness_NopOnlyMovesPc :
    (0x0FFF : Word).toNat < 0x1000 ∧ (0x0FFF : Word) ≠ 0x0000 ∧ (0x0FFF : Word) ≠ 0x00E0 ∧ (0x0FFF : Word) ≠ 0x00EE := by decide

theorem witness_RegisterSkipsCompare :
    (15 : Fin 16).val ≠ 0 ∧ (0x5FFF : Word).toNat = 0x5000 + 0x100 * (15 : Reg).val + 0x10 * (15 : Reg).val + (15 : Fin 16).val ∧
    (0x9001 : Word).toNat = 0x9000 + 0x100 * (0 : Reg).val + 0x10 * (0 : Reg).val + (1 : Fin 16).val := by decide

theorem witness_CallPushesNextAddress : (stacked 0 16).sp.val = 16 ∧ (stacked 0 15).sp.val < 16 := by decide

theorem witness_ReturnPopsTopEntry : State.reset.sp.val = 0 ∧ (stacked 0x202 1).sp.val > 0 ∧ (stacked 0x202 16).sp.val > 0 := by decide

theorem witness_CallThenReturnRoundTrip :
    ∃ t u, exec (.call 0x300) (stacked 0x202 15) = .next t ∧ u.stack = t.stack ∧ u.sp = t.sp ∧ u ≠ t :=
  ⟨_, ((stacked 0x202 15).setPc 0x400).setStack ((stacked 0x202 15).stack.set 15 0x202) 16, rfl, rfl, rfl, by decide⟩

/-- A destination other than `VF`, and `VF` itself. -/
theorem witness_AddSetsCarry : (14 : Reg) ≠ VF ∧ (15 : Reg) = VF := by decide

theorem witness_SubtractSetsNoBorrow :
    (14 : Reg) ≠ VF ∧ (regs12 5 5).reg 1 = (regs12 5 5).reg 2 ∧ (regs12 5 6).reg 1 < (regs12 5 6).reg 2 := by decide

theorem witness_ShiftsMoveOneBit :
    (14 : Reg) ≠ VF ∧ ((regs12 0x81 0).reg 1).getLsbD 0 = true ∧ ((regs12 0x81 0).reg 1).getLsbD 7 = true := by decide

theorem witness_OnlyRandomReadsRnd :
    (∀ x nn, Instr.ret ≠ .rnd x nn) ∧ (∃ t, exec .ret (stacked 0x202 1) = .next t) ∧ ∃ c, exec .ret State.reset = .fault c :=
  ⟨fun _ _ h => (nomatch h), ⟨_, rfl⟩, ⟨_, rfl⟩⟩

theorem witness_BcdStoresDigits :
    Memory.wf (indexed 0xFFD 0xFF).mem = true ∧ (indexed 0xFFD 0xFF).i.toNat ≤ 0xFFD ∧ (indexed 0xFFE 0xFF).i.toNat > 0xFFD := by decide

/-- `x = 0` and `x = F`, each at the last block that fits and the first that does not. -/
theorem witness_StoreWritesRegisterBlock :
    Memory.wf (indexed 0xFFF 1).mem = true ∧ (indexed 0xFFF 1).i.toNat + (0 : Reg).val ≤ 0xFFF ∧
    (indexed 0xFFF 1).i.toNat + (1 : Reg).val > 0xFFF ∧ (indexed 0xFF0 1).i.toNat + (15 : Reg).val ≤ 0xFFF ∧
    (indexed 0xFF1 1).i.toNat + (15 : Reg).val > 0xFFF := by decide

theorem witness_LoadReadsRegisterBlock :
    (indexed 0xFF0 1).i.toNat + (15 : Reg).val ≤ 0xFFF ∧ (indexed 0x1000 1).i.toNat + (0 : Reg).val > 0xFFF := by decide

theorem witness_LoadRestoresStoredBlock :
    ∃ t u : State, Memory.wf (indexed 0xFFE 1).mem = true ∧ exec (.storeRegs 1) (indexed 0xFFE 1) = .next t ∧ u.mem = t.mem ∧
      u.i = (indexed 0xFFE 1).i ∧ u.reg 0 ≠ t.reg 0 :=
  ⟨_, (((indexed 0xFFE 1).storeBytes [1, 0]).setReg 0 9), rfl, rfl, rfl, rfl, by decide⟩

/-- Programs that store over the word they run next, and one that stores its second byte only; a ROM over the word at `pc`. -/
theorem witness_FetchSeesStoredBytes :
    Memory.wf (indexed 0x202 0x12).mem = true ∧
    (∃ t, exec (.storeRegs 1) (indexed 0x202 0x12) = .next t ∧ t.pc.toNat = 0x202) ∧
    (∃ t, exec (.storeRegs 0) (indexed 0x203 0x12) = .next t ∧ t.pc.toNat = 0x202) ∧
    (∃ t, exec (.ldBcd 0) ((indexed 0xFFD 0xFF).setPc 0xFFC) = .next t ∧ t.pc.toNat = 0xFFE) ∧
    (∃ t, invoke (.loadRom [0x12]) State.reset = .next t ∧ t.pc.toNat ≤ 0xFFE) :=
  ⟨rfl, ⟨_, rfl, by decide⟩, ⟨_, rfl, by decide⟩, ⟨_, rfl, by decide⟩, ⟨_, rfl, by decide⟩⟩

/-- The last row that fits, the first that does not, no rows outside memory, a covered and an uncovered pixel, a lit one. -/
theorem witness_DrawTogglesCoveredCells :
    ((indexed 0xFFF 0).i.toNat + (1 : Fin 16).val - 1 ≤ 0xFFF) ∧
    ((2 : Fin 16).val > 0 ∧ (indexed 0xFFF 0).i.toNat + (2 : Fin 16).val - 1 > 0xFFF) ∧ (0 : Fin 16).val = 0 ∧
    SpriteCovers (sprite 0x01 0x39 0x1F) 0x39 0x1F 1 0 31 ∧ ¬ SpriteCovers (sprite 0x80 0 0) 0 0 1 1 0 ∧
    (litOrigin (sprite 0x80 0 0)).fb.pixel 0 0 = true := by
  refine ⟨by decide, by decide, rfl, ⟨0, 7, by decide, by decide, by decide, rfl, rfl⟩, ?_, by decide⟩
  rintro ⟨row, col, hr, hc, hb, hx, -⟩
  obtain rfl : row = 0 := by omega
  obtain rfl : col = 1 := by simp at hx; omega
  exact absurd hb (by decide)

theorem witness_SecondDrawRestoresFramebuffer :
    (∃ t, exec (.drw 0 1 1) (sprite 0x80 0 0) = .next t ∧ t.reg 0 = (sprite 0x80 0 0).reg 0 ∧
      t.reg 1 = (sprite 0x80 0 0).reg 1) ∧
    (∃ px py, SpriteCovers (sprite 0x80 0 0) 0 0 1 px py) ∧
    ∀ px py, SpriteCovers (sprite 0x80 0 0) 0 0 1 px py → Fb.pixel (sprite 0x80 0 0).fb px py = false :=
  ⟨⟨_, rfl, by decide, by decide⟩, ⟨0, 0, 0, 0, by decide, by decide, by decide, rfl, rfl⟩,
    fun px py _ => by simp [Fb.pixel, sprite, State.setReg, State.setMem, State.setI]⟩

theorem witness_KeySkipsReadOneFlag :
    ((State.reset.setReg 2 16).reg 2).toNat > 15 ∧ ((State.reset.setReg 2 15).reg 2).toNat = (15 : Reg).val := by decide

theorem witness_WaitKeyTakesLowestPressed :
    (∀ k, State.reset.pressed k = false) ∧
    (State.reset.setKeys (State.reset.key.set 15 true)).pressed 15 = true ∧
    (∀ k, k < (15 : Reg) → (State.reset.setKeys (State.reset.key.set 15 true)).pressed k = false) ∧
    (State.reset.setKeys (State.reset.key.set 0 true)).pressed 0 = true := by decide

theorem witness_SetKeySetsOneFlag : (16 : Byte).toNat > 15 ∧ (15 : Byte).toNat = (15 : Reg).val := by decide

theorem witness_LoadRomCopiesBytes :
    Memory.wf State.reset.mem = true ∧ (List.replicate 3584 (1 : Byte)).length ≤ 3584 ∧
    (List.replicate 3585 (1 : Byte)).length > 3584 ∧ (List.replicate 3584 (1 : Byte))[3583]? = some 1 := by
  refine ⟨rfl, ?_, ?_, ?_⟩
  · rw [List.length_replicate]
  · rw [List.length_replicate]; decide
  · rw [List.getElem?_replicate, if_pos (by decide)]

theorem witness_BootPlacesProgramAtPc :
    (List.replicate 3584 (1 : Byte)).length ≤ 3584 ∧ ([] : List Byte).length ≤ 3584 ∧ [(0x12 : Byte), 0x00][1]? = some 0 :=
  ⟨by rw [List.length_replicate], Nat.zero_le _, rfl⟩

theorem witness_ConditionLeavesStateUnchanged :
    hostStep (.setKey 16 true) State.reset = (State.reset, .condition (.invalidKey none 16)) ∧
    hostStep (.advance 0) (State.reset.setPc 0xFFF) =
      (State.reset.setPc 0xFFF, .condition (.memoryOutOfRange 0xFFF none 0xFFF)) := ⟨rfl, rfl⟩

/-- Every code that is ever answered is answered somewhere. -/
theorem witness_ReplyCodeTellsTheCause :
    (hostStep .advanceTimers State.reset).2.code = some 0 ∧
    (hostStep (.advance 0) (placeWord State.reset 0xFFFF)).2.code = some 2 ∧
    (hostStep (.advance 0) (placeWord State.reset 0x00EE)).2.code = some 3 ∧
    (hostStep (.setKey 16 true) State.reset).2.code = some 4 ∧
    (hostStep (.advance 0) (placeWord (State.reset.setReg 2 16) 0xE2A1)).2.code = some 4 ∧
    (hostStep (.advance 0) (placeWord (stacked 0 16) 0x2300)).2.code = some 6 ∧
    (hostStep (.advance 0) (State.reset.setPc 0xFFF)).2.code = some 7 ∧
    (hostStep (.advance 0) (placeWord (indexed 0xFFF 0) 0xD002)).2.code = some 7 ∧
    (hostStep (.advance 0) (placeWord (indexed 0xFFE 0) 0xF033)).2.code = some 7 ∧
    (hostStep (.advance 0) (placeWord (indexed 0xFF1 0) 0xFF65)).2.code = some 7 := by decide

theorem witness_ReplyCodeTellsTheCause_rom :
    (hostStep (.loadRom (List.replicate 3585 0)) State.reset).2.code = some 1 := by
  rw [hostStep, invoke, opLoadRom, if_pos (by rw [List.length_replicate]; decide)]; rfl

theorem witness_EachInstructionHasOneCondition :
    exec .ret State.reset = .fault (.stackUnderflow 0x200 0x00EE) ∧ executionCondition .nop = none := ⟨rfl, rfl⟩

theorem witness_InstructionsKeepWriterTable :
    (∃ t, exec .cls (litOrigin State.reset) = .next t ∧ t.fb ≠ (litOrigin State.reset).fb) ∧
    (∃ t, exec (.call 0x300) State.reset = .next t ∧ t.stack[0] ≠ State.reset.stack[0]) ∧
    (∃ t, exec (.ldBcd 0) (indexed 0xFFD 0xFF) = .next t) ∧ ∃ t, exec (.storeRegs 15) (indexed 0xFF0 1) = .next t :=
  ⟨⟨_, rfl, by decide⟩, ⟨_, rfl, by decide⟩, ⟨_, rfl⟩, ⟨_, rfl⟩⟩

theorem witness_OperationsKeepWriterTable :
    hostStep (.setKey 16 true) State.reset = (State.reset, .condition (.invalidKey none 16)) ∧
    (hostStep (.advance 9) State.reset).2 = .success false ∧ (hostStep .advanceTimers (State.reset.setSt 1)).2 = .success true ∧
    (hostStep (.setKey 15 true) State.reset).2 = .success false ∧ (hostStep (.loadRom [1]) State.reset).2 = .success false ∧
    (hostStep .reset State.reset).2 = .success false := ⟨rfl, rfl, rfl, rfl, rfl, rfl⟩

theorem witness_StepKeepsInvariant : State.Inv ((State.reset.setPc 0xFFE).setHost [.advance 0]) ∧ ∃ t, step ((State.reset.setPc 0xFFE).setHost [.advance 0]) = .next t :=
  ⟨⟨rfl, by decide, rfl, fun k h => absurd h (by simp)⟩, ⟨_, rfl⟩⟩

theorem witness_StepsRunTheHostSession :
    State.reset.host = [] ∧ (session [.loadRom [0x12, 0x00], .advance 5, .advanceTimers] State.reset).2 =
      [.success false, .success false, .success false] ∧
    AllSucceed [.success false, .success false, .success false] :=
  ⟨rfl, by decide, by intro r h; simp at h; exact ⟨false, h⟩⟩

/-- A state with no script and either plan, one with a script, a step to a next state and a step to a condition. -/
theorem witness_StepIsAnOperationOnTheCore :
    State.reset.host = [] ∧ State.reset.plan = .anything ∧ (State.reset.setPlan .advancing).plan = .advancing ∧
    (State.reset.setHost [.setKey 16 true]).host = [.setKey 16 true] ∧
    (∃ t, step (State.reset.setPlan .advancing) = .next t) ∧ ∃ c, step (State.reset.setHost [.setKey 16 true]) = .fault c :=
  ⟨rfl, rfl, rfl, rfl, ⟨_, rfl⟩, ⟨_, rfl⟩⟩

theorem witness_EveryRunKeepsInvariant : State.reset.Inv := ⟨rfl, by decide, rfl, fun k h => absurd h (by simp)⟩

/-- A host free from the start, and a machine that runs two steps. -/
theorem witness_EveryHostSequenceIsARun :
    State.reset.plan = .anything ∧ State.reset.host = [] ∧
    ∃ t, Host.Core.run Sys2Proof.core 2 (State.reset.setHost [.loadRom [0x12], .reset]) = .next t :=
  ⟨rfl, rfl, ⟨_, rfl⟩⟩

/-- R211: an infinite sequence of ticks, presses and no `advance` is a run, and a condition does not end it. -/
theorem test_run_of_any_sequence :
    (turnsBy (fun k => if k = 2 then .setKey 16 true else .advanceTimers) 4 (State.reset.setSt 3)).2 =
      [.success false, .success false, .condition (.invalidKey none 16), .success true] ∧
    (turnsBy (fun k => .setKey (BitVec.ofNat 8 k) true) 3 State.reset).1.pressed 2 = true := by decide

theorem witness_FinishedRunStaysFinished :
    (placeWord State.reset 0x1200).finished = true ∧ (placeWord State.reset 0x1200).host = [] ∧
    (placeWord State.reset 0x1200).plan = .advancing := by decide

end Sys2Proof.Tests
end

section
/-! Decoder facts: `decodeWord` and `encode` are inverse to each other, one lemma per format, and the words it rejects
(R82, R84, R85, R88). -/

namespace Sys2Proof

/-! A word is put together again from its fields (R81, R82). -/

theorem formNNN_of_fields {w : Word} {d : Nat} (hd : fieldD1 w = d) : formNNN d (fieldNNN w) = w := by
  subst hd
  have := w.isLt
  apply BitVec.eq_of_toNat_eq
  simp only [formNNN, fieldD1, fieldNNN, BitVec.toNat_ofNat]; omega

theorem formXNN_of_fields {w : Word} {d : Nat} (hd : fieldD1 w = d) : formXNN d (fieldX w) (fieldNN w) = w := by
  subst hd
  have := w.isLt
  apply BitVec.eq_of_toNat_eq
  simp only [formXNN, fieldD1, fieldX, fieldNN, lowByte, BitVec.toNat_ofNat]; omega

theorem formXYN_of_fields {w : Word} {d n : Nat} (hd : fieldD1 w = d) (hn : (fieldN w).val = n) :
    formXYN d (fieldX w) (fieldY w) n = w := by
  subst hd hn
  have := w.isLt
  apply BitVec.eq_of_toNat_eq
  simp only [formXYN, fieldD1, fieldX, fieldY, fieldN, BitVec.toNat_ofNat]; omega

theorem formX_of_fields {w : Word} {d l : Nat} (hd : fieldD1 w = d) (hl : (fieldNN w).toNat = l) :
    formX d (fieldX w) l = w := by
  subst hd hl
  exact formXNN_of_fields rfl

/-! Decoding and encoding are inverse to each other (R85). -/

/-- Every instruction decodes from its own word: the fields of its format give back `d1`, the fixed bits and the operands. -/
theorem decodeWord_encode (i : Instr) : decodeWord (encode i) = .ok i := by
  cases i with
  | nop | cls | ret => rfl
  | jp | call | ldI | jpV0 => simp [encode, decodeWord, fieldD1_formNNN, fieldNNN_formNNN]
  | seImm | sneImm | ldImm | addImm | rnd =>
    simp [encode, decodeWord, fieldD1_formXNN, fieldX_formXNN, fieldNN_formXNN]
  | seReg | ldReg | orReg | andReg | xorReg | addReg | subReg | shr | subnReg | shl | sneReg =>
    simp [encode, decodeWord, fieldD1_formXYN, fieldX_formXYN, fieldY_formXYN, fieldN_formXYN]
  | drw x y n =>
    have hn : fieldN (formXYN 0xD x y n.val) = n := Fin.ext (fieldN_formXYN n.isLt x y)
    simp [encode, decodeWord, fieldD1_formXYN, fieldX_formXYN, fieldY_formXYN, hn]
  | skp | sknp | ldFromDt | ldKey | ldDt | ldSt | addI | ldGlyph | ldBcd | storeRegs | loadRegs =>
    simp [encode, decodeWord, fieldD1_formX, fieldX_formX, fieldNN_formX]

/-- A word that decodes is the word of its instruction: along the branches of the decoder, `d1` and the fixed bits are
those of the branch and the operands are the other fields. -/
theorem encode_of_decodeWord {w : Word} {i : Instr} (h : decodeWord w = .ok i) : encode i = w := by
  unfold decodeWord at h
  split at h
  next => split at h <;> cases h <;> exact BitVec.eq_of_toNat_eq (Eq.symm ‹_›)
  next hd => cases h; exact formNNN_of_fields hd
  next hd => cases h; exact formNNN_of_fields hd
  next hd => cases h; exact formXNN_of_fields hd
  next hd => cases h; exact formXNN_of_fields hd
  next hd => split at h <;> cases h; exact formXYN_of_fields hd ‹_›
  next hd => cases h; exact formXNN_of_fields hd
  next hd => cases h; exact formXNN_of_fields hd
  next hd => split at h <;> cases h <;> exact formXYN_of_fields hd ‹_›
  next hd => split at h <;> cases h; exact formXYN_of_fields hd ‹_›
  next hd => cases h; exact formNNN_of_fields hd
  next hd => cases h; exact formNNN_of_fields hd
  next hd => cases h; exact formXNN_of_fields hd
  next hd => cases h; exact formXYN_of_fields hd rfl
  next hd => split at h <;> cases h <;> exact formX_of_fields hd ‹_›
  next hd => split at h <;> cases h <;> exact formX_of_fields hd ‹_›
  next => cases h

theorem decodeWord_eq_ok_iff {w : Word} {i : Instr} : decodeWord w = .ok i ↔ w = encode i :=
  ⟨fun h => (encode_of_decodeWord h).symm, fun h => h ▸ decodeWord_encode i⟩

/-! Words of no pattern (R88). -/

/-- The major opcode 0 holds three full words and nothing else (R85, R104). -/
theorem decodeWord_unknown_of_d1_zero {w : Word} (hd : w.toNat < 0x1000) (hnop : w ≠ encode .nop)
    (hcls : w ≠ encode .cls) (hret : w ≠ encode .ret) : decodeWord w = .error (.unknownOpcode w) := by
  have hd1 : fieldD1 w = 0 := Nat.div_eq_of_lt hd
  simp only [decodeWord, hd1]
  split
  next hw => exact absurd (BitVec.eq_of_toNat_eq hw) hnop
  next hw => exact absurd (BitVec.eq_of_toNat_eq hw) hcls
  next hw => exact absurd (BitVec.eq_of_toNat_eq hw) hret
  next => rfl

/-- The major opcodes 5 and 9 hold one pattern each, of `d4 = 0` (R85, R111, R112). -/
theorem decodeWord_unknown_of_d4_ne_zero {w : Word} (hd : fieldD1 w = 5 ∨ fieldD1 w = 9) (hn : (fieldN w).val ≠ 0) :
    decodeWord w = .error (.unknownOpcode w) := by
  -- `hn` is what rules out the one row of each of the two branches
  rcases hd with hd | hd <;> simp only [decodeWord, hd]

end Sys2Proof
end

section
/-! What the frame of a statement follows from, one rule per write of the state, and the transfers of control as the shared
operations they run (R36, R103, R113). -/

namespace Sys2Proof.Machine

variable {s t : State} {ps : List Part}

/-- A number that is the word of an instruction encodes it (R85). -/
theorem encodes_of_toNat_encode {code : Nat} {i : Instr} (h : (encode i).toNat = code) : Encodes code i := by
  rw [Encodes, ← h, BitVec.ofNat_toNat, BitVec.setWidth_eq]
  exact decodeWord_encode i

/-! Frames. -/

theorem Same.refl (p : Part) (s : State) : Same p s s := by
  cases p <;> simp [Same]

theorem OnlyChanges.refl (ps : List Part) (s : State) : OnlyChanges ps s s := fun p _ => Same.refl p s

/-- A write of `pc` keeps every frame that has `pc` in it. -/
theorem OnlyChanges.setPc (h : OnlyChanges ps s t) (hpc : .pc ∈ ps) (a : Word) : OnlyChanges ps s (t.setPc a) := by
  intro p hp
  have := h p hp
  cases p with
  | pc => exact absurd hpc hp
  | _ => exact this

/-- A write of the stack keeps every frame that has the stack in it. -/
theorem OnlyChanges.setStack (h : OnlyChanges ps s t) (hstack : .stack ∈ ps) (k : Vector Word Config.stackDepth)
    (d : Fin (Config.stackDepth + 1)) : OnlyChanges ps s (t.setStack k d) := by
  intro p hp
  have := h p hp
  cases p with
  | stack => exact absurd hstack hp
  | _ => exact this

theorem onlyChanges_setPc (s : State) (a : Word) : OnlyChanges [.pc] s (s.setPc a) :=
  (OnlyChanges.refl _ s).setPc (by decide) a

/-! Targets. -/

/-- The zero-extended address is the same number (R83, R106). -/
theorem zextAddr_toNat (nnn : Addr12) : (zextAddr nnn).toNat = nnn.toNat := by
  exact BitVec.toNat_setWidth_of_le (by decide)

/-- The sum of an address and a byte fits sixteen bits (R108). -/
theorem indexedTarget_toNat (nnn : Addr12) (v0 : Byte) : (indexedTarget nnn v0).toNat = nnn.toNat + v0.toNat := by
  have := nnn.isLt; have := v0.isLt
  simp only [indexedTarget, BitVec.toNat_ofNat]; omega

/-! The shared ends of an instruction. -/

/-- A committed skip, its condition read as a proposition (R103). -/
theorem skipIf_spec {c : Bool} {P : Prop} [Decidable P] (h : c = true ↔ P) (s : State) :
    ∃ t, skipIf c s = .next t ∧ t.pc = s.pc + (if P then 4 else 2) ∧ OnlyChanges [.pc] s t :=
  ⟨_, skipIf_eq c s, by simp only [State.setPc_pc, h], onlyChanges_setPc s _⟩

/-- A return with no live entry (R105, R234). -/
theorem execRet_empty (h : s.sp.val = 0) : execRet s = .fault (.stackUnderflow s.pc (encode .ret)) := by
  simp [execRet, pop_empty h, raise]

/-- A return to the top live entry (R105). -/
theorem execRet_entry (h : 0 < s.sp.val) :
    execRet s = .next ((s.setStack s.stack ⟨s.sp.val - 1, by omega⟩).setPc (s.stack[s.sp.val - 1]'(by omega))) := by
  simp [execRet, pop_entry h, jumpTo]

end Sys2Proof.Machine
end

section
/-! The statements of the cycle and of control transfer (40_cycle_and_control R104 to R112). -/

namespace Sys2Proof.Machine

/-- Settles O13: a pop finds no entry or takes the top one, and its frame is a write of the stack and a write of `pc`. -/
theorem returnPopsTopEntry : Obligations.ReturnPopsTopEntry := by
  intro s
  refine ⟨encodes_of_toNat_encode rfl, execRet_empty, fun hsp => ⟨_, execRet_entry hsp, rfl, ?_, fun _ => rfl, ?_⟩⟩
  · intro k hk
    simp [hk]
  · exact ((OnlyChanges.refl _ s).setStack (by decide) _ _).setPc (by decide) _

/-- Settles O15: each of the four is a skip on its comparison, and `5xyN`, `9xyN` with `N ≠ 0` have no pattern. -/
theorem registerSkipsCompare : Obligations.RegisterSkipsCompare := by
  intro x y nn s
  refine ⟨?_, ?_, ?_, ?_, ?_, skipIf_spec beq_iff_eq s, skipIf_spec bne_iff_ne s, skipIf_spec beq_iff_eq s,
    skipIf_spec bne_iff_ne s⟩
  · exact encodes_of_toNat_encode ((formXNN_toNat (by decide) x nn).trans (by omega))
  · exact encodes_of_toNat_encode ((formXNN_toNat (by decide) x nn).trans (by omega))
  · exact encodes_of_toNat_encode ((formXYN_toNat (by decide) (by decide) x y).trans (by omega))
  · exact encodes_of_toNat_encode ((formXYN_toNat (by decide) (by decide) x y).trans (by omega))
  · rintro w ⟨n, hn, hw⟩
    have hx := x.isLt; have hy := y.isLt; have hlt := n.isLt
    apply decodeWord_unknown_of_d4_ne_zero
    · simp only [fieldD1]; omega
    · simp only [fieldN]; omega

/-- Settles O9: a word decodes to NOP only if it is NOP's own word, and NOP commits with nothing but `pc` moved. -/
theorem nopOnlyMovesPc : Obligations.NopOnlyMovesPc :=
  ⟨fun _ => decodeWord_eq_ok_iff, fun _ => decodeWord_unknown_of_d1_zero,
    fun s => ⟨_, complete_eq s, rfl, onlyChanges_setPc s _⟩⟩

/-- Settles O10: the jump is a write of `pc` with the zero-extended address. -/
theorem jumpSetsPc : Obligations.JumpSetsPc := fun nnn s =>
  ⟨encodes_of_toNat_encode (formNNN_toNat (by decide) nnn), _, rfl, zextAddr_toNat nnn, onlyChanges_setPc s _⟩

/-- Settles O11: the jump is a write of `pc` with the sum, which needs no reduction. -/
theorem indexedJumpAddsV0 : Obligations.IndexedJumpAddsV0 := fun nnn s =>
  ⟨encodes_of_toNat_encode (formNNN_toNat (by decide) nnn), _, rfl, indexedTarget_toNat nnn (s.reg 0),
    onlyChanges_setPc s _⟩

end Sys2Proof.Machine
end

section
/-! Register operations that end in a write of one register: their words, their effect and their frame (R22, R36, R82). -/

namespace Sys2Proof.Machine

variable {s t : State} {ps : List Part} {i : Instr} {x y : Reg} {nn : Byte} {code d n : Nat}

/-! Words written out as sums of their nibbles (R82). -/

theorem encodes_of_formXNN (hi : encode i = formXNN d x nn) (hd : d < 16)
    (hcode : code = d * 0x1000 + x.val * 0x100 + nn.toNat) : Encodes code i :=
  encodes_of_toNat_encode (by rw [hi, formXNN_toNat hd, hcode])

theorem encodes_of_formXYN (hi : encode i = formXYN d x y n) (hd : d < 16) (hn : n < 16)
    (hcode : code = d * 0x1000 + x.val * 0x100 + y.val * 0x10 + n) : Encodes code i :=
  encodes_of_toNat_encode (by rw [hi, formXYN_toNat hd hn, hcode])

/-! The write of one register. -/

/-- A write of a register keeps every frame that has the registers in it. -/
theorem OnlyChanges.setReg (h : OnlyChanges ps s t) (hregs : .regs ∈ ps) (r : Reg) (b : Byte) :
    OnlyChanges ps s (t.setReg r b) := by
  intro p hp
  have := h p hp
  cases p with
  | regs => exact absurd hregs hp
  | _ => exact this

theorem KeepsRegs.refl (rs : List Reg) (s : State) : KeepsRegs rs s s := fun _ _ => rfl

/-- A write of a register keeps every register frame that has this register in it. -/
theorem KeepsRegs.setReg {rs : List Reg} (h : KeepsRegs rs s t) {r : Reg} (hr : r ∈ rs) (b : Byte) :
    KeepsRegs rs s (t.setReg r b) := by
  intro q hq
  have hne : q ≠ r := fun e => hq (e ▸ hr)
  rw [State.reg_setReg, if_neg hne, h q hq]

/-- A committed write of one register, the byte read through what it has to satisfy (R22, R100). -/
theorem complete_setReg_spec {P : Byte → Prop} {b : Byte} (hb : P b) (x : Reg) (s : State) :
    ∃ t, complete (s.setReg x b) = .next t ∧ P (t.reg x) ∧ t.pc = s.pc + 2 ∧ KeepsRegs [x] s t ∧
      OnlyChanges [.pc, .regs] s t := by
  refine ⟨_, complete_eq _, ?_, rfl, ?_, ?_⟩
  · rwa [State.reg_setPc, State.reg_setReg, if_pos rfl]
  · exact (KeepsRegs.refl _ s).setReg (List.mem_singleton_self x) b
  · exact ((OnlyChanges.refl _ s).setReg (by decide) x b).setPc (by decide) _

end Sys2Proof.Machine
end

section
/-! The statements of the register operations without a flag (41_alu R130 to R135). -/

namespace Sys2Proof.Machine

/-- Settles O18: each of the three is a write of one register, with a byte whose bits the operation gives one by one. -/
theorem logicIsBitwiseWithoutFlag : Obligations.LogicIsBitwiseWithoutFlag := by
  intro x y s
  refine ⟨?_, ?_, ?_, ?_, ?_, ?_⟩
  · exact encodes_of_formXYN rfl (by decide) (by decide) (by omega)
  · exact encodes_of_formXYN rfl (by decide) (by decide) (by omega)
  · exact encodes_of_formXYN rfl (by decide) (by decide) (by omega)
  · exact complete_setReg_spec (P := fun b => ∀ k, b.getLsbD k = ((s.reg x).getLsbD k || (s.reg y).getLsbD k))
      (fun _ => BitVec.getLsbD_or) x s
  · exact complete_setReg_spec (P := fun b => ∀ k, b.getLsbD k = ((s.reg x).getLsbD k && (s.reg y).getLsbD k))
      (fun _ => BitVec.getLsbD_and) x s
  · exact complete_setReg_spec (P := fun b => ∀ k, b.getLsbD k = ((s.reg x).getLsbD k ^^ (s.reg y).getLsbD k))
      (fun _ => BitVec.getLsbD_xor) x s

/-- Settles O16: both loads are a write of one register. -/
theorem loadsWriteOneRegister : Obligations.LoadsWriteOneRegister := by
  intro x y nn s
  refine ⟨?_, ?_, ?_, ?_⟩
  · exact encodes_of_formXNN rfl (by decide) (by omega)
  · exact encodes_of_formXYN rfl (by decide) (by decide) (by omega)
  · exact complete_setReg_spec (P := (· = nn)) rfl x s
  · exact complete_setReg_spec (P := (· = s.reg y)) rfl x s

/-- Settles O17: the addition is a write of one register with the sum narrowed to a byte, which is the sum modulo 256. -/
theorem addImmediateWrapsWithoutFlag : Obligations.AddImmediateWrapsWithoutFlag := by
  intro x nn s
  refine ⟨?_, ?_⟩
  · exact encodes_of_formXNN rfl (by decide) (by omega)
  · exact complete_setReg_spec (P := fun b => b.toNat = ((s.reg x).toNat + nn.toNat) % 256)
      (BitVec.toNat_ofNat _ 8) x s

end Sys2Proof.Machine
end

section
/-! The write of the index register: the words of the X format, the effect and the frame (R24, R36, R82, R161). -/

namespace Sys2Proof.Machine

variable {s t : State} {ps : List Part} {i : Instr} {x : Reg} {code d l : Nat}

theorem encodes_of_formX (hi : encode i = formX d x l) (hd : d < 16) (hl : l < 256)
    (hcode : code = d * 0x1000 + x.val * 0x100 + l) : Encodes code i :=
  encodes_of_toNat_encode (by rw [hi, formX_toNat hd hl, hcode])

/-- The index sum is reduced modulo 65536 and not to the twelve bits of an address (R161). -/
theorem indexPlus_toNat (a : Word) (b : Byte) : (indexPlus a b).toNat = (a.toNat + b.toNat) % 65536 :=
  BitVec.toNat_ofNat _ 16

/-- A write of `I` keeps every frame that has `I` in it. -/
theorem OnlyChanges.setI (h : OnlyChanges ps s t) (hindex : .index ∈ ps) (a : Word) : OnlyChanges ps s (t.setI a) := by
  intro p hp
  have := h p hp
  cases p with
  | index => exact absurd hindex hp
  | _ => exact this

/-- A committed write of `I`, the word read as the number it has to be (R100). -/
theorem complete_setI_spec {a : Word} {n : Nat} (ha : a.toNat = n) (s : State) :
    ∃ t, complete (s.setI a) = .next t ∧ t.i.toNat = n ∧ t.pc = s.pc + 2 ∧ OnlyChanges [.pc, .index] s t :=
  ⟨_, complete_eq _, ha, rfl, ((OnlyChanges.refl _ s).setI (by decide) a).setPc (by decide) _⟩

end Sys2Proof.Machine
end

section
/-! The statements of the index register (42_index_memory R160, R161). -/

namespace Sys2Proof.Machine

/-- Settles O25: both are a write of `I`, with the zero-extended address and with the sum modulo 65536. -/
theorem indexLoadsSetI : Obligations.IndexLoadsSetI := by
  intro nnn x s
  refine ⟨?_, ?_, ?_, ?_⟩
  · exact encodes_of_toNat_encode (formNNN_toNat (by decide) nnn)
  · exact encodes_of_formX rfl (by decide) (by decide) (by omega)
  · exact complete_setI_spec (zextAddr_toNat nnn) s
  · exact complete_setI_spec (indexPlus_toNat s.i (s.reg x)) s

end Sys2Proof.Machine
end

section
/-! The facts a display instruction rests on: the write of the framebuffer, the host's view of it, and what one sprite and
the same sprite again do to every cell (R36, R66, R181 to R183, R218). -/

namespace Sys2Proof.Machine

variable {s t : State} {ps : List Part} {x y : Reg} {n : Fin 16} {px : Fin Config.screenW} {py : Fin Config.screenH}

/-- A write of the framebuffer keeps every frame that has the framebuffer in it. -/
theorem OnlyChanges.setFb (h : OnlyChanges ps s t) (hfb : .fb ∈ ps) (f : Fb) : OnlyChanges ps s (t.setFb f) := by
  intro p hp
  have := h p hp
  cases p with
  | fb => exact absurd hfb hp
  | _ => exact this

/-- The host sees pixel (x, y) as its cell `y * 64 + x` (R66, R218). -/
theorem frameView_eq_pixel {k : Fin (Config.screenW * Config.screenH)} (hk : k.val = py.val * 64 + px.val) :
    frameView s k = Fb.pixel s.fb px py := by
  have hpx := px.isLt
  simp only [Config.screenW] at hpx
  rw [frameView, Fb.cell]
  congr 1 <;> apply Fin.ext
  · show k.val % 64 = px.val
    omega
  · show k.val / 64 = py.val
    omega

/-- The listed cells of the sprite at `I` are the pixels it covers (R181, R182). -/
theorem mem_spriteCells_loadBytes {vx vy m : Nat} :
    (px, py) ∈ spriteCells (s.loadBytes m) vx vy ↔ SpriteCovers s vx vy m px py := by
  have hbyte (row : Nat) (b : Byte) :
      (s.loadBytes m)[row]? = some b ↔ row < m ∧ s.byte (s.i.toNat + row) = b := by
    rw [loadBytes_getElem]
    split <;> simp [*]
  simp only [mem_spriteCells, hbyte, SpriteCovers, Prod.mk.injEq]
  constructor
  · rintro ⟨row, col, _, ⟨hrow, rfl⟩, hcol, hbit, hx, hy⟩
    exact ⟨row, col, hrow, hcol, hbit, congrArg Fin.val hx, congrArg Fin.val hy⟩
  · rintro ⟨row, col, hrow, hcol, hbit, hx, hy⟩
    exact ⟨row, col, _, ⟨hrow, rfl⟩, hcol, hbit, Fin.ext hx, Fin.ext hy⟩

/-- A sprite has at most 15 rows, so it toggles no cell twice (R181). -/
theorem spriteCells_loadBytes_nodup (s : State) (n : Fin 16) (vx vy : Nat) :
    (spriteCells (s.loadBytes n.val) vx vy).Nodup :=
  spriteCells_nodup (by rw [loadBytes_length]; omega) vx vy

theorem drawCells_pixel {cs : List (Fin Config.screenW × Fin Config.screenH)} (hnd : cs.Nodup) (f : Fb) :
    Fb.pixel (drawCells f cs).1 px py = (Fb.pixel f px py ^^ decide ((px, py) ∈ cs)) :=
  (foldl_xorCell cs hnd (f, false)).1 px py

/-- Toggling the same cells a second time gives back the framebuffer (R183). -/
theorem drawCells_twice {cs : List (Fin Config.screenW × Fin Config.screenH)} (hnd : cs.Nodup) (f : Fb) :
    (drawCells (drawCells f cs).1 cs).1 = f :=
  Fb.ext_pixel fun px py => by simp [drawCells_pixel hnd]

theorem spriteDraw_pixel_of_covers (h : SpriteCovers s (s.reg x).toNat (s.reg y).toNat n.val px py) :
    Fb.pixel (spriteDraw x y n s).1 px py = !Fb.pixel s.fb px py := by
  rw [spriteDraw, drawCells_pixel (spriteCells_loadBytes_nodup ..), decide_eq_true (mem_spriteCells_loadBytes.2 h),
    Bool.xor_true]

theorem spriteDraw_pixel_of_not_covers (h : ¬ SpriteCovers s (s.reg x).toNat (s.reg y).toNat n.val px py) :
    Fb.pixel (spriteDraw x y n s).1 px py = Fb.pixel s.fb px py := by
  rw [spriteDraw, drawCells_pixel (spriteCells_loadBytes_nodup ..), decide_eq_false (mt mem_spriteCells_loadBytes.1 h),
    Bool.xor_false]

/-- A draw collides exactly when the sprite covers a lit pixel (R181). -/
theorem spriteDraw_collides_iff (x y : Reg) (n : Fin 16) (s : State) :
    (spriteDraw x y n s).2 = true ↔
      ∃ px py, SpriteCovers s (s.reg x).toNat (s.reg y).toNat n.val px py ∧ Fb.pixel s.fb px py = true := by
  rw [spriteDraw, drawCells, (foldl_xorCell _ (spriteCells_loadBytes_nodup ..) _).2]
  simp [Prod.exists, mem_spriteCells_loadBytes]

/-- The state a draw answers: the toggled framebuffer, the collision in `VF`, and `pc` past the instruction (R181). -/
def afterDraw (x y : Reg) (n : Fin 16) (s : State) : State :=
  ((s.setFb (spriteDraw x y n s).1).setReg VF (flagByte (spriteDraw x y n s).2)).setPc (s.pc + 2)

/-- A draw answers exactly when its bytes all exist, and then the one state (R181). -/
theorem exec_drw_next_iff :
    exec (.drw x y n) s = .next t ↔ (n.val = 0 ∨ s.i.toNat + n.val ≤ 4096) ∧ t = afterDraw x y n s :=
  withRange_complete_iff

@[simp] theorem afterDraw_fb : (afterDraw x y n s).fb = (spriteDraw x y n s).1 := rfl
@[simp] theorem afterDraw_loadBytes (m : Nat) : (afterDraw x y n s).loadBytes m = s.loadBytes m := rfl

/-- A draw moves no byte of its sprite (R36). -/
@[simp] theorem spriteCovers_afterDraw {vx vy m : Nat} :
    SpriteCovers (afterDraw x y n s) vx vy m px py ↔ SpriteCovers s vx vy m px py := Iff.rfl

@[simp] theorem afterDraw_reg_VF : (afterDraw x y n s).reg VF = flagByte (spriteDraw x y n s).2 := by
  rw [afterDraw, State.reg_setPc, State.reg_setReg, if_pos rfl]

/-- `VF` after a draw is 1 exactly when the sprite covered a lit pixel (R181). -/
theorem afterDraw_reg_VF_eq_one_iff : (afterDraw x y n s).reg VF = 1 ↔
    ∃ px py, SpriteCovers s (s.reg x).toNat (s.reg y).toNat n.val px py ∧ Fb.pixel s.fb px py = true := by
  rw [afterDraw_reg_VF, flagByte_eq_one_iff, spriteDraw_collides_iff]

theorem keepsRegs_afterDraw (x y : Reg) (n : Fin 16) (s : State) : KeepsRegs [VF] s (afterDraw x y n s) :=
  (KeepsRegs.refl _ s).setReg (t := s.setFb _) (List.mem_singleton_self VF) _

theorem onlyChanges_afterDraw (x y : Reg) (n : Fin 16) (s : State) :
    OnlyChanges [.pc, .regs, .fb] s (afterDraw x y n s) :=
  (((OnlyChanges.refl _ s).setFb (by decide) _).setReg (by decide) VF _).setPc (by decide) _

/-- The same draw again gives back the framebuffer: unless it moved its own coordinates, it toggles the same cells (R183). -/
theorem spriteDraw_afterDraw (hx : (afterDraw x y n s).reg x = s.reg x) (hy : (afterDraw x y n s).reg y = s.reg y) :
    (spriteDraw x y n (afterDraw x y n s)).1 = s.fb := by
  rw [spriteDraw, hx, hy, afterDraw_loadBytes, afterDraw_fb]
  exact drawCells_twice (spriteCells_loadBytes_nodup ..) s.fb

end Sys2Proof.Machine
end

section
/-! The statements of the display instructions (43_display R180 to R183). -/

namespace Sys2Proof.Machine

/-- Settles O33: a draw faults or answers by its range check; each pixel is listed once or not at all among the cells it
toggles, and the flag is the collision of the listed cells. -/
theorem drawTogglesCoveredCells : Obligations.DrawTogglesCoveredCells := by
  intro x y n s
  refine ⟨encodes_of_formXYN rfl (by decide) n.isLt (by omega), fun hrange => withRange_neg (by omega), fun hrange => ?_⟩
  refine ⟨afterDraw x y n s, exec_drw_next_iff.2 ⟨by omega, rfl⟩, fun _ _ => spriteDraw_pixel_of_covers,
    fun _ _ => spriteDraw_pixel_of_not_covers, fun _ _ _ => frameView_eq_pixel, ?_, afterDraw_reg_VF_eq_one_iff, rfl,
    keepsRegs_afterDraw x y n s, onlyChanges_afterDraw x y n s⟩
  rw [afterDraw_reg_VF]
  cases (spriteDraw x y n s).2 with
  | false => exact .inl rfl
  | true => exact .inr rfl

/-- Settles O34: the second draw toggles the same cells, because the first one kept `I`, the memory and, as supposed, `Vx` and
`Vy`; dark cells under the sprite are lit after the first draw. -/
theorem secondDrawRestoresFramebuffer : Obligations.SecondDrawRestoresFramebuffer := by
  intro x y n s t h hx hy
  obtain ⟨hrange, rfl⟩ := exec_drw_next_iff.1 h
  have hflag := afterDraw_reg_VF_eq_one_iff (x := x) (y := y) (n := n) (s := afterDraw x y n s)
  simp only [hx, hy, spriteCovers_afterDraw] at hflag
  refine ⟨_, exec_drw_next_iff.2 ⟨hrange, rfl⟩, spriteDraw_afterDraw hx hy, hflag, ?_⟩
  rintro ⟨px, py, hcovers⟩ hdark
  have hlit : Fb.pixel (afterDraw x y n s).fb px py = true := by
    rw [afterDraw_fb, spriteDraw_pixel_of_covers hcovers, hdark px py hcovers, Bool.not_false]
  exact hflag.2 ⟨px, py, hcovers, hlit⟩

/-- Settles O32: the clear is a write of the framebuffer whose cells are all dark. -/
theorem clearDarkensEveryCell : Obligations.ClearDarkensEveryCell :=
  ⟨encodes_of_toNat_encode rfl, fun s => ⟨_, complete_eq _, fun _ => darkFb_pixel _ _, rfl,
    ((OnlyChanges.refl _ s).setFb (by decide) darkFb).setPc (by decide) _⟩⟩

end Sys2Proof.Machine
end

section
/-! The keypad wait and the timers: the two outcomes of `Fx0A`, and the writes of `dt` and `st` with their frames (R27,
R36, R192 to R195). -/

namespace Sys2Proof.Machine

variable {s t : State} {ps : List Part}

/-! The wait for a key. -/

/-- Moving the advanced `pc` back over the instruction is no move, also where the advance wrapped (R101, R192). -/
theorem setPc_npc_sub_two (s : State) : s.setPc (s.npc - 2) = s := by
  rw [State.npc, BitVec.add_sub_cancel]
  rfl

/-- `Fx0A` with every key up answers the state it started from (R192). -/
theorem execLdKey_of_no_key (x : Reg) (h : ∀ k, s.pressed k = false) : execLdKey x s = .next s := by
  simp only [execLdKey, lowestPressed_none_iff.2 h, jumpTo, setPc_npc_sub_two]

/-- `Fx0A` with a key down writes the number of the lowest one (R192). -/
theorem execLdKey_of_lowest (x : Reg) {m : Reg} (hm : s.pressed m = true) (hlow : ∀ k, k < m → s.pressed k = false) :
    execLdKey x s = complete (s.setReg x (BitVec.ofNat 8 m.val)) := by
  simp only [execLdKey, lowestPressed_eq_some hm hlow]

/-- A key number fits a byte (R30). -/
theorem keyByte_toNat (m : Reg) : (BitVec.ofNat 8 m.val).toNat = m.val :=
  (BitVec.toNat_ofNat m.val 8).trans (Nat.mod_eq_of_lt (by omega))

/-! The writes of the timers. -/

/-- A write of `dt` keeps every frame that has `dt` in it. -/
theorem OnlyChanges.setDt (h : OnlyChanges ps s t) (hdt : .dt ∈ ps) (b : Byte) : OnlyChanges ps s (t.setDt b) := by
  intro p hp
  have := h p hp
  cases p with
  | dt => exact absurd hdt hp
  | _ => exact this

/-- A write of `st` keeps every frame that has `st` in it. -/
theorem OnlyChanges.setSt (h : OnlyChanges ps s t) (hst : .st ∈ ps) (b : Byte) : OnlyChanges ps s (t.setSt b) := by
  intro p hp
  have := h p hp
  cases p with
  | st => exact absurd hst hp
  | _ => exact this

end Sys2Proof.Machine
end

section
/-! The statements of the keypad wait and the timer moves (44_keypad_timers R192 to R195). -/

namespace Sys2Proof.Machine

/-- Settles O36: with every key up the cycle ends in the state it began in; else it is a write of one register with the number
of the lowest key. -/
theorem waitKeyTakesLowestPressed : Obligations.WaitKeyTakesLowestPressed := by
  intro x s
  refine ⟨encodes_of_formX rfl (by decide) (by decide) (by omega), fun hup => ?_, fun m hm hlow => ?_⟩
  · exact ⟨s, execLdKey_of_no_key x hup, OnlyChanges.refl [] s⟩
  · obtain ⟨t, hnext, hrest⟩ := complete_setReg_spec (P := fun b => b.toNat = m.val) (keyByte_toNat m) x s
    exact ⟨t, (execLdKey_of_lowest x hm hlow).trans hnext, hrest⟩

/-- Settles O37: the three are one write each, of a register, of `dt` and of `st`; an `advance` has no tone by the definition of
the tone. -/
theorem timerMovesCopyOneByte : Obligations.TimerMovesCopyOneByte := by
  intro x s
  refine ⟨?_, ?_, ?_, fun _ => rfl, ?_, ?_, ?_⟩
  · exact encodes_of_formX rfl (by decide) (by decide) (by omega)
  · exact encodes_of_formX rfl (by decide) (by decide) (by omega)
  · exact encodes_of_formX rfl (by decide) (by decide) (by omega)
  · exact complete_setReg_spec (P := (· = s.dt)) rfl x s
  · exact ⟨_, complete_eq _, rfl, rfl, ((OnlyChanges.refl _ s).setDt (by decide) _).setPc (by decide) _⟩
  · exact ⟨_, complete_eq _, rfl, rfl, ((OnlyChanges.refl _ s).setSt (by decide) _).setPc (by decide) _⟩

end Sys2Proof.Machine
end

section
/-! The decoder beside the opcode map (R84, R85): a word that matches no row decodes to no instruction. -/

namespace Sys2Proof

/-- The laws of the single instructions, collected: every instruction's word matches its row, which is in the map. -/
theorem tableRow_statement : ∀ i, Laws.TableRow.Statement i
  | .nop => Laws.TableRow.nop
  | .cls => Laws.TableRow.cls
  | .ret => Laws.TableRow.ret
  | .jp nnn => Laws.TableRow.jp nnn
  | .call nnn => Laws.TableRow.call nnn
  | .seImm x nn => Laws.TableRow.seImm x nn
  | .sneImm x nn => Laws.TableRow.sneImm x nn
  | .seReg x y => Laws.TableRow.seReg x y
  | .ldImm x nn => Laws.TableRow.ldImm x nn
  | .addImm x nn => Laws.TableRow.addImm x nn
  | .ldReg x y => Laws.TableRow.ldReg x y
  | .orReg x y => Laws.TableRow.orReg x y
  | .andReg x y => Laws.TableRow.andReg x y
  | .xorReg x y => Laws.TableRow.xorReg x y
  | .addReg x y => Laws.TableRow.addReg x y
  | .subReg x y => Laws.TableRow.subReg x y
  | .shr x y => Laws.TableRow.shr x y
  | .subnReg x y => Laws.TableRow.subnReg x y
  | .shl x y => Laws.TableRow.shl x y
  | .sneReg x y => Laws.TableRow.sneReg x y
  | .ldI nnn => Laws.TableRow.ldI nnn
  | .jpV0 nnn => Laws.TableRow.jpV0 nnn
  | .rnd x nn => Laws.TableRow.rnd x nn
  | .drw x y n => Laws.TableRow.drw x y n
  | .skp x => Laws.TableRow.skp x
  | .sknp x => Laws.TableRow.sknp x
  | .ldFromDt x => Laws.TableRow.ldFromDt x
  | .ldKey x => Laws.TableRow.ldKey x
  | .ldDt x => Laws.TableRow.ldDt x
  | .ldSt x => Laws.TableRow.ldSt x
  | .addI x => Laws.TableRow.addI x
  | .ldGlyph x => Laws.TableRow.ldGlyph x
  | .ldBcd x => Laws.TableRow.ldBcd x
  | .storeRegs x => Laws.TableRow.storeRegs x
  | .loadRegs x => Laws.TableRow.loadRegs x

theorem decodeWord_ne_ok_of_no_row {w : Word} (hrow : ∀ r ∈ opcodeRows, w &&& r.mask ≠ r.code) (i : Instr) :
    decodeWord w ≠ .ok i := by
  intro hi
  obtain ⟨-, hmatch, hmem⟩ := tableRow_statement i
  rw [encode_of_decodeWord hi] at hmatch
  exact hrow i.row hmem hmatch

end Sys2Proof
end

section
/-! The conditions (60_exceptions): the cycle on a word of no pattern (R233), and the outcomes that no operation has, the
reserved condition and a refusal of the model (R212, R236). -/

namespace Sys2Proof.Machine

variable {s : State}

/-! A word of no pattern. -/

/-- After a condition the host sees the state before the operation (R9, R230). -/
theorem hostStep_of_fault {op : HostOp} {c : Fault} (h : invoke op s = .fault c) : hostStep op s = (s, .condition c) := by
  simp [hostStep, h]

/-- A cycle that fetches a word of no pattern ends at dispatch (R100, R233). -/
theorem advance_of_no_row (hpc : s.pc.toNat ≤ 0xFFE)
    (hrow : ∀ r ∈ opcodeRows, s.wordAt s.pc.toNat &&& r.mask ≠ r.code) (rnd : Option Byte) :
    advance rnd s = .fault (.unknownOpcode s.pc (s.wordAt s.pc.toNat)) := by
  rcases advance_cases rnd s with ⟨hout, -⟩ | ⟨-, -, hfault⟩ | ⟨-, i, hi, -⟩
  · exact absurd hpc (by omega)
  · exact hfault
  · exact absurd hi (decodeWord_ne_ok_of_no_row hrow i)

/-! The reserved condition. -/

/-- An outcome some rule gives: neither the reserved condition nor a refusal of the model (R212, R236). -/
def NoDefect (r : Result) : Prop := r ≠ .fault .registerIndexOutOfRange ∧ ∀ q, r ≠ .refused q

theorem NoDefect.next (t : State) : NoDefect (.next t) := by simp [NoDefect]

theorem NoDefect.fault {c : Fault} (h : c ≠ .registerIndexOutOfRange) : NoDefect (.fault c) := by simp [NoDefect, h]

theorem NoDefect.withRange {body : Result} (h : NoDefect body) (w : Word) (n : Nat) (s : State) :
    NoDefect (withRange w n s body) := by
  by_cases hn : n = 0 ∨ s.i.toNat + n ≤ 4096
  · rwa [withRange_pos hn]
  · rw [withRange_neg hn]
    exact .fault (by simp)

theorem NoDefect.endCycle {r : Result} (h : NoDefect r) : NoDefect (endCycle r) := by
  obtain ⟨hfault, hrefused⟩ := h
  exact ⟨mt endCycle_fault_iff.1 hfault, fun q => mt endCycle_refused_iff.1 (hrefused q)⟩

/-- The instructions that raise are the stack's two, the key skips and the range-checked ones, each with a condition of its
own; every other one commits (R234, R235, R237, R238). -/
theorem noDefect_exec (i : Instr) (s : State) : NoDefect (exec i s) := by
  cases i with
  | ret | call | skp | sknp =>
    simp only [exec, execRet, execCall, execSkp, execSknp]
    split
    · exact .next _
    · exact .fault (by simp)
  | ldKey =>
    simp only [exec, execLdKey]
    split <;> exact .next _
  | drw | ldBcd | storeRegs | loadRegs => exact .withRange (.next _) _ _ s
  | _ => exact .next _

theorem noDefect_advance (rnd : Option Byte) (s : State) : NoDefect (advance rnd s) := by
  rcases advance_cases rnd s with ⟨-, h⟩ | ⟨-, -, h⟩ | ⟨-, i, -, h⟩ <;> rw [h]
  · exact .fault (by simp)
  · exact .fault (by simp)
  · exact (noDefect_exec i _).endCycle

theorem noDefect_invoke (op : HostOp) (s : State) : NoDefect (invoke op s) := by
  cases op with
  | advance rnd => exact noDefect_advance (some rnd) s
  | advanceTimers | reset => exact .next _
  | setKey index pressed =>
    simp only [invoke, opSetKey]
    split
    · exact .next _
    · exact .fault (by simp)
  | loadRom bytes =>
    simp only [invoke, opLoadRom]
    split
    · exact .fault (by simp)
    · exact .next _

end Sys2Proof.Machine
end

section
/-! The statements of the conditions (60_exceptions R233, R236). -/

namespace Sys2Proof.Machine

/-- Settles O8: whatever its random byte, the `advance` ends at dispatch in the state it began in, so the second one finds the
same word. -/
theorem unknownWordRaisesUnknownOpcode : Obligations.UnknownWordRaisesUnknownOpcode := by
  intro s a b hpc hrow
  have hstep (rnd : Byte) :
      hostStep (.advance rnd) s = (s, .condition (.unknownOpcode s.pc (s.wordAt s.pc.toNat))) :=
    hostStep_of_fault (advance_of_no_row hpc hrow (some rnd))
  simp only [session, hstep]

/-- Settles O47: a step is an operation, scripted or freely chosen, or a cycle of a host that only advances. -/
theorem registerIndexNeverOutOfRange : Obligations.RegisterIndexNeverOutOfRange := by
  intro s
  rcases step_cases s with ⟨op, rest, -, h⟩ | ⟨-, -, h⟩ | ⟨-, -, h⟩ <;> rw [h]
  · exact noDefect_invoke op _
  · exact noDefect_invoke (Config.freeOp s.picks) _
  · exact noDefect_advance none s

end Sys2Proof.Machine
end

section
/-! The decoder and the opcode map agree (R84, R85, R88): what a masked word says of its fields, the instruction a word of
each row is, and the one reason of the decoder's rejections. -/

namespace Sys2Proof

/-! A word that matches a row, read through the row's mask (R84). -/

theorem fieldD1_of_and_F000 {w : Word} {d : Nat} (hd : d < 16) (h : w &&& 0xF000 = BitVec.ofNat 16 (d * 0x1000)) :
    fieldD1 w = d := by
  rw [and_F000_eq_iff, BitVec.toNat_ofNat] at h
  simp only [fieldD1]; omega

theorem fields_of_and_F00F {w : Word} {d n : Nat} (hd : d < 16) (hn : n < 16)
    (h : w &&& 0xF00F = BitVec.ofNat 16 (d * 0x1000 + n)) : fieldD1 w = d ∧ (fieldN w).val = n := by
  rw [and_F00F_eq_iff, BitVec.toNat_ofNat] at h
  simp only [fieldD1, fieldN]; omega

theorem fields_of_and_F0FF {w : Word} {d l : Nat} (hd : d < 16) (hl : l < 256)
    (h : w &&& 0xF0FF = BitVec.ofNat 16 (d * 0x1000 + l)) : fieldD1 w = d ∧ (fieldNN w).toNat = l := by
  rw [and_F0FF_eq_iff, BitVec.toNat_ofNat] at h
  simp only [fieldD1, fieldNN, lowByte, BitVec.toNat_ofNat]; omega

/-- A row of the map is the row of an instruction, and every word it matches is the word of such an instruction. -/
def OpcodeRow.HasInstr (r : OpcodeRow) : Prop := ∀ w : Word, w &&& r.mask = r.code → ∃ i : Instr, i.row = r ∧ encode i = w

theorem hasInstr_word {c : Word} (i : Instr) (hrow : i.row = ⟨0xFFFF, c⟩) (hword : encode i = c) :
    OpcodeRow.HasInstr ⟨0xFFFF, c⟩ := fun w h =>
  ⟨i, hrow, hword.trans (BitVec.eq_of_toNat_eq ((and_FFFF_eq_iff w c).1 h)).symm⟩

theorem hasInstr_NNN (d : Nat) (mk : Addr12 → Instr) (hd : d < 16 := by decide)
    (hrow : ∀ nnn, (mk nnn).row = ⟨0xF000, BitVec.ofNat 16 (d * 0x1000)⟩ := by intros; rfl)
    (hword : ∀ nnn, encode (mk nnn) = formNNN d nnn := by intros; rfl) :
    OpcodeRow.HasInstr ⟨0xF000, BitVec.ofNat 16 (d * 0x1000)⟩ := fun w h =>
  ⟨mk (fieldNNN w), hrow _, (hword _).trans (formNNN_of_fields (fieldD1_of_and_F000 hd h))⟩

theorem hasInstr_XNN (d : Nat) (mk : Reg → Byte → Instr) (hd : d < 16 := by decide)
    (hrow : ∀ x nn, (mk x nn).row = ⟨0xF000, BitVec.ofNat 16 (d * 0x1000)⟩ := by intros; rfl)
    (hword : ∀ x nn, encode (mk x nn) = formXNN d x nn := by intros; rfl) :
    OpcodeRow.HasInstr ⟨0xF000, BitVec.ofNat 16 (d * 0x1000)⟩ := fun w h =>
  ⟨mk (fieldX w) (fieldNN w), hrow _ _, (hword _ _).trans (formXNN_of_fields (fieldD1_of_and_F000 hd h))⟩

theorem hasInstr_XY (d n : Nat) (mk : Reg → Reg → Instr) (hd : d < 16 := by decide) (hn : n < 16 := by decide)
    (hrow : ∀ x y, (mk x y).row = ⟨0xF00F, BitVec.ofNat 16 (d * 0x1000 + n)⟩ := by intros; rfl)
    (hword : ∀ x y, encode (mk x y) = formXYN d x y n := by intros; rfl) :
    OpcodeRow.HasInstr ⟨0xF00F, BitVec.ofNat 16 (d * 0x1000 + n)⟩ := fun w h =>
  have ⟨hd1, hd4⟩ := fields_of_and_F00F hd hn h
  ⟨mk (fieldX w) (fieldY w), hrow _ _, (hword _ _).trans (formXYN_of_fields hd1 hd4)⟩

theorem hasInstr_X (d l : Nat) (mk : Reg → Instr) (hd : d < 16 := by decide) (hl : l < 256 := by decide)
    (hrow : ∀ x, (mk x).row = ⟨0xF0FF, BitVec.ofNat 16 (d * 0x1000 + l)⟩ := by intros; rfl)
    (hword : ∀ x, encode (mk x) = formX d x l := by intros; rfl) :
    OpcodeRow.HasInstr ⟨0xF0FF, BitVec.ofNat 16 (d * 0x1000 + l)⟩ := fun w h =>
  have ⟨hd1, hlow⟩ := fields_of_and_F0FF hd hl h
  ⟨mk (fieldX w), hrow _, (hword _).trans (formX_of_fields hd1 hlow)⟩

theorem hasInstr_drw : OpcodeRow.HasInstr ⟨0xF000, 0xD000⟩ := fun w h =>
  ⟨.drw (fieldX w) (fieldY w) (fieldN w), rfl, formXYN_of_fields (fieldD1_of_and_F000 (d := 0xD) (by decide) h) rfl⟩

/-! Row by row, in the order of the map. -/

theorem hasInstr_of_mem_low : ∀ r ∈ opcodeRowsLow, r.HasInstr := by
  simp only [opcodeRowsLow, List.forall_mem_cons]
  exact ⟨hasInstr_word .nop rfl rfl, hasInstr_word .cls rfl rfl, hasInstr_word .ret rfl rfl, hasInstr_NNN 0x1 .jp,
    hasInstr_NNN 0x2 .call, hasInstr_XNN 0x3 .seImm, hasInstr_XNN 0x4 .sneImm, hasInstr_XY 0x5 0x0 .seReg,
    hasInstr_XNN 0x6 .ldImm, hasInstr_XNN 0x7 .addImm, hasInstr_XY 0x8 0x0 .ldReg, hasInstr_XY 0x8 0x1 .orReg,
    hasInstr_XY 0x8 0x2 .andReg, hasInstr_XY 0x8 0x3 .xorReg, hasInstr_XY 0x8 0x4 .addReg,
    hasInstr_XY 0x8 0x5 .subReg, hasInstr_XY 0x8 0x6 .shr, hasInstr_XY 0x8 0x7 .subnReg, List.forall_mem_nil _⟩

theorem hasInstr_of_mem_high : ∀ r ∈ opcodeRowsHigh, r.HasInstr := by
  simp only [opcodeRowsHigh, List.forall_mem_cons]
  exact ⟨hasInstr_XY 0x8 0xE .shl, hasInstr_XY 0x9 0x0 .sneReg, hasInstr_NNN 0xA .ldI, hasInstr_NNN 0xB .jpV0,
    hasInstr_XNN 0xC .rnd, hasInstr_drw, hasInstr_X 0xE 0x9E .skp, hasInstr_X 0xE 0xA1 .sknp,
    hasInstr_X 0xF 0x07 .ldFromDt, hasInstr_X 0xF 0x0A .ldKey, hasInstr_X 0xF 0x15 .ldDt, hasInstr_X 0xF 0x18 .ldSt,
    hasInstr_X 0xF 0x1E .addI, hasInstr_X 0xF 0x29 .ldGlyph, hasInstr_X 0xF 0x33 .ldBcd,
    hasInstr_X 0xF 0x55 .storeRegs, hasInstr_X 0xF 0x65 .loadRegs, List.forall_mem_nil _⟩

theorem hasInstr_of_mem (r : OpcodeRow) (hr : r ∈ opcodeRows) : r.HasInstr :=
  (List.mem_append.1 hr).elim (hasInstr_of_mem_low r) (hasInstr_of_mem_high r)

theorem row_matches_encode (i : Instr) : encode i &&& i.row.mask = i.row.code := (tableRow_statement i).2.1

theorem row_mem_opcodeRows (i : Instr) : i.row ∈ opcodeRows := (tableRow_statement i).2.2

/-- A word of a row of the map decodes to an instruction of that row (R84). -/
theorem exists_decodeWord_of_row {w : Word} {r : OpcodeRow} (hr : r ∈ opcodeRows) (h : w &&& r.mask = r.code) :
    ∃ i : Instr, i.row = r ∧ decodeWord w = .ok i := by
  obtain ⟨i, hrow, rfl⟩ := hasInstr_of_mem r hr w h
  exact ⟨i, hrow, decodeWord_encode i⟩

/-- The decoder's one reason to reject a word is that it is unknown, and it names the word (R88). -/
theorem decodeWord_eq_error {w : Word} {e : Reject} (h : decodeWord w = .error e) : e = .unknownOpcode w := by
  unfold decodeWord at h
  split at h
  case h_1 | h_6 | h_9 | h_10 | h_15 | h_16 => (split at h <;> cases h); rfl
  case h_17 => cases h; rfl
  all_goals cases h

theorem no_row_of_decodeWord_error {w : Word} {e : Reject} (h : decodeWord w = .error e) :
    ∀ r ∈ opcodeRows, w &&& r.mask ≠ r.code := by
  intro r hr hm
  obtain ⟨i, -, hi⟩ := exists_decodeWord_of_row hr hm
  rw [h] at hi
  cases hi

end Sys2Proof
end

section
/-! The statements of the encoding (30_encoding R80 to R88). -/

namespace Sys2Proof

/-- Settles O1: the two bytes of an instruction are its word, and a word decodes from its fields, format by format. -/
theorem decodeInvertsEncode : Obligations.DecodeInvertsEncode := fun i rest =>
  ⟨decodeWord_encode i, by simp [encodeBytes, decodeBytes, decodeWord_encode]⟩

/-- Settles O2: along the branches of the decoder no bit of the word is dropped. -/
theorem encodeInvertsDecode : Obligations.EncodeInvertsDecode := fun _ _ => encode_of_decodeWord

/-- Settles O3: a word of a row decodes to an instruction of that row, and a word decodes to one instruction only. -/
theorem decoderAgreesWithOpcodeMap : Obligations.DecoderAgreesWithOpcodeMap := by
  refine ⟨rfl, fun w => ⟨?_, ?_⟩, fun w i hi r hr => ⟨fun hm => ?_, ?_⟩, fun w hno => ?_⟩
  · rintro ⟨i, hi⟩
    exact ⟨i.row, row_mem_opcodeRows i, encode_of_decodeWord hi ▸ row_matches_encode i⟩
  · rintro ⟨r, hr, hm⟩
    obtain ⟨i, -, hi⟩ := exists_decodeWord_of_row hr hm
    exact ⟨i, hi⟩
  · obtain ⟨j, hrow, hj⟩ := exists_decodeWord_of_row hr hm
    rw [hi] at hj
    cases hj
    exact hrow.symm
  · rintro rfl
    exact encode_of_decodeWord hi ▸ row_matches_encode i
  · cases hd : decodeWord w with
    | ok i => exact absurd hd (decodeWord_ne_ok_of_no_row hno i)
    | error e => rw [decodeWord_eq_error hd]

/-- Settles O4: each of the nine words is the word of its instruction, and the tenth has no row. -/
theorem sampleWordsDecode : Obligations.SampleWordsDecode :=
  ⟨rfl, rfl, rfl, rfl, rfl, rfl, rfl, rfl, rfl, rfl⟩

end Sys2Proof
end

section
/-! One cycle and one step by the case they are in (R100, R211), and what placing a word changes. -/

namespace Sys2Proof.Machine

variable {s : State} {i : Instr}

/-- A cycle whose fetch leaves memory (R57, R100). -/
theorem advance_outside (hpc : s.pc.toNat > 0xFFE) (rnd : Option Byte) :
    advance rnd s = .fault (.memoryOutOfRange s.pc none s.pc) := by
  simp only [advance, fetch_outside hpc, raise]

/-- A cycle that fetches the word of an instruction (R100). -/
theorem advance_of_decodes (hpc : s.pc.toNat ≤ 0xFFE) (hi : decodeWord (s.wordAt s.pc.toNat) = .ok i)
    (rnd : Option Byte) : advance rnd s = endCycle (exec i (s.withRnd rnd)) := by
  simp only [advance, fetch_inside hpc, hi]

theorem step_of_script {op : HostOp} {rest : List HostOp} (h : s.host = op :: rest) :
    step s = invoke op (s.setHost rest) := by
  simp [step, nextOperation, operationBy, State.choice, State.chosen, h, perform]

theorem step_of_anything (h : s.host = []) (hp : s.plan = .anything) :
    step s = invoke (Config.freeOp s.picks) (s.setPicks (s.picks + 1)) := by
  simp [step, nextOperation, operationBy, State.choice, State.chosen, h, hp, perform]

theorem step_of_advancing (h : s.host = []) (hp : s.plan = .advancing) : step s = advance none s := by
  simp [step, nextOperation, operationBy, State.choice, State.chosen, h, hp, perform]

end Sys2Proof.Machine
end

section
/-! The statements of the cycle (40_cycle_and_control R100, 45_host_operations R210, R211). -/

namespace Sys2Proof.Machine

/-- Settles O5: the word is the one at `pc`, and the cycle ends at the fetch, at dispatch or in the instruction. -/
theorem advanceIsOneCycle : Obligations.AdvanceIsOneCycle := fun s rnd =>
  ⟨fun hpc => advance_outside hpc rnd, fun hpc => ⟨s.wordAt s.pc.toNat, wordOfBytes_toNat _ _,
    fun hrow => advance_of_no_row hpc hrow rnd, fun _ hi => advance_of_decodes hpc hi rnd⟩⟩

/-- Settles O6: a step is the operation the host's script, plan or free choice gives, and an `advance` runs the instruction
at `pc`, which the choice of the operation does not change. -/
theorem stepRunsDecodedInstruction : Obligations.StepRunsDecodedInstruction := by
  intro s i hpc hi
  refine ⟨fun h hp => ?_, fun b rest h => ?_, fun op rest => step_of_script, step_of_anything, fun b => ?_⟩
  · rw [step_of_advancing h hp, advance_of_decodes hpc hi]
  · exact (step_of_script h).trans (advance_of_decodes (s := s.setHost rest) hpc hi (some b))
  · exact advance_of_decodes (s := s.setPicks (s.picks + 1)) hpc hi (some b)

end Sys2Proof.Machine
end

section
/-! The call stack, as the shared operations of `2nnn` and `00EE` (R26, R105, R107). -/

namespace Sys2Proof.Machine

variable {s : State}

/-- A call with no free slot (R107, R237). -/
theorem execCall_full (nnn : Addr12) (h : s.sp.val = 16) :
    execCall nnn s = .fault (.stackOverflow s.pc (encode (.call nnn))) := by
  simp [execCall, push_full h, raise]

/-- A call with a free slot (R107). -/
theorem execCall_room (nnn : Addr12) (h : s.sp.val < 16) :
    execCall nnn s = .next
      ((s.setStack (s.stack.set s.sp.val (s.pc + 2)) ⟨s.sp.val + 1, Nat.succ_lt_succ h⟩).setPc (zextAddr nnn)) := by
  simp [execCall, push_room h, jumpTo, State.npc]

/-- A call that answers a next state had a free slot, and this is the state (R107). -/
theorem execCall_next_iff {nnn : Addr12} {t : State} : execCall nnn s = .next t ↔ ∃ h : s.sp.val < 16,
    t = (s.setStack (s.stack.set s.sp.val (s.pc + 2)) ⟨s.sp.val + 1, Nat.succ_lt_succ h⟩).setPc (zextAddr nnn) := by
  rcases Nat.lt_or_ge s.sp.val 16 with h | h
  · simp [execCall_room nnn h, h, eq_comm]
  · simp [execCall_full nnn (le_antisymm (sp_le s) h), h]

end Sys2Proof.Machine
end

section
/-! The statements of the subroutine call (40_cycle_and_control R107, R113). -/

namespace Sys2Proof.Machine

/-- Settles O12: a call finds the stack full or writes the slot at `sp`. -/
theorem callPushesNextAddress : Obligations.CallPushesNextAddress := by
  intro nnn s
  refine ⟨encodes_of_toNat_encode (formNNN_toNat (by decide) nnn), execCall_full nnn, fun hsp => ?_⟩
  refine ⟨_, execCall_room nnn hsp, zextAddr_toNat nnn, rfl, fun k => ?_,
    ((OnlyChanges.refl _ s).setStack (by decide) _ _).setPc (by decide) _⟩
  simp [Vector.getElem_set, eq_comm]

/-- Settles O14: the slot the return reads is the one the call wrote, and the slots below it are those before the call. -/
theorem callThenReturnRoundTrip : Obligations.CallThenReturnRoundTrip := by
  intro nnn s t u hcall hstack hsp
  obtain ⟨hroom, rfl⟩ := execCall_next_iff.1 hcall
  have hdepth : u.sp.val = s.sp.val + 1 := congrArg Fin.val hsp
  refine ⟨_, execRet_entry (by omega), ?_, ?_, fun k hk => ?_⟩
  · simp [hstack, hdepth]
  · apply Fin.ext
    simp [hdepth]
  · have hne : s.sp.val ≠ k.val := by omega
    simp [hstack, Vector.getElem_set, hne]

end Sys2Proof.Machine
end

section
/-! The instructions that write a result and a flag (R23, R143): the two orders of their writes, and the flags and shifted
bytes bit by bit. -/

namespace Sys2Proof.Machine

/-- Result and flag, committed, the flag written last: it stands also in `VF` itself (R143). -/
theorem complete_flagStands_spec {op : FlagOp} (h : Config.vfCollision op = .resultThenFlag) {P : Byte → Prop} {r : Byte}
    (hr : P r) (x : Reg) (f : Byte) (s : State) :
    ∃ t, complete (writeResultFlag op x r f s) = .next t ∧ (x ≠ VF → P (t.reg x)) ∧ t.reg VF = f ∧ t.pc = s.pc + 2 ∧
      KeepsRegs [x, VF] s t ∧ OnlyChanges [.pc, .regs] s t := by
  rw [writeResultFlag_flagStands h]
  refine ⟨_, complete_eq _, fun hx => ?_, ?_, rfl, ?_, ?_⟩
  · rwa [State.reg_setPc, State.reg_setReg, if_neg hx, State.reg_setReg, if_pos rfl]
  · rw [State.reg_setPc, State.reg_setReg, if_pos rfl]
  · exact ((KeepsRegs.refl _ s).setReg (by simp) r).setReg (by simp) f
  · exact (((OnlyChanges.refl _ s).setReg (by decide) x r).setReg (by decide) VF f).setPc (by decide) _

/-- Result and flag, committed, the result written last: it stands also in `VF` itself (R143). -/
theorem complete_resultStands_spec {op : FlagOp} (h : Config.vfCollision op = .flagThenResult) {P : Byte → Prop} {r : Byte}
    (hr : P r) (x : Reg) (f : Byte) (s : State) :
    ∃ t, complete (writeResultFlag op x r f s) = .next t ∧ P (t.reg x) ∧ (x ≠ VF → t.reg VF = f) ∧ t.pc = s.pc + 2 ∧
      KeepsRegs [x, VF] s t ∧ OnlyChanges [.pc, .regs] s t := by
  rw [writeResultFlag_resultStands h]
  refine ⟨_, complete_eq _, ?_, fun hx => ?_, rfl, ?_, ?_⟩
  · rwa [State.reg_setPc, State.reg_setReg, if_pos rfl]
  · rw [State.reg_setPc, State.reg_setReg, if_neg (Ne.symm hx), State.reg_setReg, if_pos rfl]
  · exact ((KeepsRegs.refl _ s).setReg (by simp) f).setReg (by simp) r
  · exact (((OnlyChanges.refl _ s).setReg (by decide) VF f).setReg (by decide) x r).setPc (by decide) _

/-! The flags (R136 to R140). -/

theorem carryFlag_eq (a b : Byte) : carryFlag a b = if a.toNat + b.toNat > 255 then 1 else 0 := by
  simp only [carryFlag, flagByte_eq, decide_eq_true_eq]

theorem noBorrowFlag_eq (a b : Byte) : noBorrowFlag a b = if a.toNat ≥ b.toNat then 1 else 0 := by
  simp only [noBorrowFlag, flagByte_eq, decide_eq_true_eq]

theorem lowBitFlag_eq (a : Byte) : lowBitFlag a = if a.getLsbD 0 then 1 else 0 := by
  have hbit : a.getLsbD 0 = decide (a.toNat % 2 = 1) := Nat.testBit_zero _
  rw [hbit]
  rcases Nat.mod_two_eq_zero_or_one a.toNat with h | h <;> simp [lowBitFlag, h]

theorem highBitFlag_eq (a : Byte) : highBitFlag a = if a.getLsbD 7 then 1 else 0 := by
  have hlt := a.isLt
  have hbit : a.getLsbD 7 = decide (a.toNat / 128 % 2 = 1) := Nat.testBit_eq_decide_div_mod_eq
  rw [hbit]
  rcases (show a.toNat / 128 = 0 ∨ a.toNat / 128 = 1 by omega) with h | h <;> simp [highBitFlag, h]

/-! The results. -/

/-- The difference of bytes is the integer difference modulo 256, also where it borrows (R137, R139). -/
theorem sub_toNat_int (a b : Byte) : ((a - b).toNat : Int) = ((a.toNat : Int) - (b.toNat : Int)) % 256 := by
  have := a.isLt; have := b.isLt
  rw [BitVec.toNat_sub]
  omega

theorem ofNat_half (a : Byte) : BitVec.ofNat 8 (a.toNat / 2) = a >>> 1 := by
  have := a.isLt
  apply BitVec.eq_of_toNat_eq
  rw [BitVec.toNat_ofNat, BitVec.toNat_ushiftRight, Nat.shiftRight_one]
  omega

theorem ofNat_double (a : Byte) : BitVec.ofNat 8 (a.toNat * 2) = a <<< 1 := by
  apply BitVec.eq_of_toNat_eq
  rw [BitVec.toNat_ofNat, BitVec.toNat_shiftLeft, Nat.shiftLeft_eq, Nat.pow_one]

/-- A logical shift right by one moves every bit down by one (R138). -/
theorem getLsbD_half (a : Byte) (k : Nat) : (BitVec.ofNat 8 (a.toNat / 2)).getLsbD k = a.getLsbD (k + 1) := by
  rw [ofNat_half, BitVec.getLsbD_ushiftRight, Nat.add_comm]

end Sys2Proof.Machine
end

section
/-! The statements of the register operations with a flag (41_alu R136 to R140, R143). -/

namespace Sys2Proof.Machine

/-- Settles O19: the sum is written first and the carry last. -/
theorem addSetsCarry : Obligations.AddSetsCarry := by
  intro x y s
  refine ⟨encodes_of_formXYN rfl (by decide) (by decide) (by omega), ?_⟩
  rw [← carryFlag_eq]
  exact complete_flagStands_spec rfl (P := fun b => b.toNat = ((s.reg x).toNat + (s.reg y).toNat) % 256)
    (BitVec.toNat_ofNat _ 8) x _ s

/-- Settles O20: in both forms the difference is written first and the flag last. -/
theorem subtractSetsNoBorrow : Obligations.SubtractSetsNoBorrow := by
  intro x y s
  rw [← noBorrowFlag_eq, ← noBorrowFlag_eq]
  refine ⟨?_, ?_, ?_, ?_⟩
  · exact encodes_of_formXYN rfl (by decide) (by decide) (by omega)
  · exact encodes_of_formXYN rfl (by decide) (by decide) (by omega)
  · exact complete_flagStands_spec rfl (P := fun b => (b.toNat : Int) = ((s.reg x).toNat - (s.reg y).toNat : Int) % 256)
      (sub_toNat_int _ _) x _ s
  · exact complete_flagStands_spec rfl (P := fun b => (b.toNat : Int) = ((s.reg y).toNat - (s.reg x).toNat : Int) % 256)
      (sub_toNat_int _ _) x _ s

/-- Settles O21: in both forms the flag is written first and the shifted byte last. -/
theorem shiftsMoveOneBit : Obligations.ShiftsMoveOneBit := by
  intro x y s
  rw [← lowBitFlag_eq, ← highBitFlag_eq]
  refine ⟨?_, ?_, ?_, ?_⟩
  · exact encodes_of_formXYN rfl (by decide) (by decide) (by omega)
  · exact encodes_of_formXYN rfl (by decide) (by decide) (by omega)
  · exact complete_resultStands_spec rfl (P := fun b => ∀ k, b.getLsbD k = (s.reg x).getLsbD (k + 1))
      (getLsbD_half _) x _ s
  · exact complete_resultStands_spec rfl (P := fun b => b.toNat = (s.reg x).toNat * 2 % 256)
      (BitVec.toNat_ofNat _ 8) x _ s

/-- Settles O22: with `x = F` the flag is written last by the sum and the differences, the result by the shifts. -/
theorem flagCollisionKeepsLaterWrite : Obligations.FlagCollisionKeepsLaterWrite := by
  intro y s
  have hflag {op : FlagOp} (h : Config.vfCollision op = .resultThenFlag) (r f : Byte) :=
    complete_flagStands_spec h (P := fun _ => True) (r := r) trivial VF f s
  have hresult {op : FlagOp} (h : Config.vfCollision op = .flagThenResult) (r f : Byte) :=
    complete_resultStands_spec h (P := (· = r)) rfl VF f s
  obtain ⟨t1, h1, -, hf1, -⟩ := hflag (op := .add) rfl (BitVec.ofNat 8 ((s.reg VF).toNat + (s.reg y).toNat)) _
  obtain ⟨t2, h2, -, hf2, -⟩ := hflag (op := .sub) rfl (s.reg VF - s.reg y) _
  obtain ⟨t3, h3, -, hf3, -⟩ := hflag (op := .subn) rfl (s.reg y - s.reg VF) _
  obtain ⟨t4, h4, hr4, -⟩ := hresult (op := .shr) rfl _ (lowBitFlag (s.reg VF))
  obtain ⟨t5, h5, hr5, -⟩ := hresult (op := .shl) rfl _ (highBitFlag (s.reg VF))
  exact ⟨t1, t2, t3, t4, t5, h1, h2, h3, h4, h5, hf1.trans (carryFlag_eq _ _), hf2.trans (noBorrowFlag_eq _ _),
    hf3.trans (noBorrowFlag_eq _ _), hr4.trans (ofNat_half _), hr5.trans (ofNat_double _)⟩

end Sys2Proof.Machine
end

section
/-! The random input, the glyph address and the key skips: what each of these operands is read as (R141, R162, R190). -/

namespace Sys2Proof.Machine

variable {s t : State} {ps : List Part}

/-- A change of the count of draws keeps every frame that has it in it. -/
theorem OnlyChanges.setDraws (h : OnlyChanges ps s t) (hdraws : .draws ∈ ps) (n : Nat) :
    OnlyChanges ps s (t.setDraws n) := by
  intro p hp
  have := h p hp
  cases p with
  | draws => exact absurd hdraws hp
  | _ => exact this

/-- `Cxnn` is a write of one register with the masked input byte, and one draw more (R141). -/
theorem exec_rnd_spec (x : Reg) (nn : Byte) (s : State) :
    ∃ t, exec (.rnd x nn) s = .next t ∧ t.reg x = s.rndByte &&& nn ∧ t.pc = s.pc + 2 ∧ KeepsRegs [x] s t ∧
      OnlyChanges [.pc, .regs, .draws] s t := by
  refine ⟨_, complete_eq _, ?_, rfl, ?_, ?_⟩
  · rw [State.reg_setPc, State.reg_setDraws, State.reg_setReg, if_pos rfl]
  · exact (KeepsRegs.refl _ s).setReg (List.mem_singleton_self x) _
  · exact (((OnlyChanges.refl _ s).setReg (by decide) x _).setDraws (by decide) _).setPc (by decide) _

/-- Five times a byte fits sixteen bits (R162). -/
theorem glyphAddr_toNat (a : Byte) : (glyphAddr a).toNat = a.toNat * 5 := by
  have := a.isLt
  simp only [glyphAddr, BitVec.toNat_ofNat]; omega

/-! The key skips: a register above 15 names no key, any other one names the key of its number (R190, R191). -/

theorem execSkp_of_gt {x : Reg} (h : (s.reg x).toNat > 15) :
    execSkp x s = .fault (.invalidKey (some (s.pc, encode (.skp x))) (s.reg x)) := by
  simp only [execSkp, keyNumber_of_gt h, raise]

theorem execSknp_of_gt {x : Reg} (h : (s.reg x).toNat > 15) :
    execSknp x s = .fault (.invalidKey (some (s.pc, encode (.sknp x))) (s.reg x)) := by
  simp only [execSknp, keyNumber_of_gt h, raise]

theorem execSkp_of_key {x k : Reg} (h : (s.reg x).toNat = k.val) : execSkp x s = skipIf (s.pressed k) s := by
  simp only [execSkp, keyNumber_of_le h]

theorem execSknp_of_key {x k : Reg} (h : (s.reg x).toNat = k.val) : execSknp x s = skipIf (!s.pressed k) s := by
  simp only [execSknp, keyNumber_of_le h]

theorem execSkp_of_le {x : Reg} (h : ¬ (s.reg x).toNat > 15) : ∃ c, execSkp x s = skipIf c s :=
  ⟨_, execSkp_of_key (k := ⟨(s.reg x).toNat, by omega⟩) rfl⟩

theorem execSknp_of_le {x : Reg} (h : ¬ (s.reg x).toNat > 15) : ∃ c, execSknp x s = skipIf c s :=
  ⟨_, execSknp_of_key (k := ⟨(s.reg x).toNat, by omega⟩) rfl⟩

end Sys2Proof.Machine
end

section
/-! The statements of the random input, the glyph address and the key skips (R141, R162, R190, R191). -/

namespace Sys2Proof.Machine

/-- Settles O23: the byte is the one on the input, or the environment's, and it is masked before the one write. -/
theorem randomIsMaskedInput : Obligations.RandomIsMaskedInput := by
  intro x nn b s
  refine ⟨encodes_of_formXNN rfl (by decide) (by omega), exec_rnd_spec x nn (s.withRnd (some b)), ?_⟩
  obtain ⟨t, hnext, hreg, hrest⟩ := exec_rnd_spec x nn (s.withRnd none)
  exact ⟨t, _, hnext, hreg, by rw [hreg, BitVec.and_assoc, BitVec.and_not_self]; exact BitVec.and_zero, hrest⟩

/-- Settles O26: the glyph address is a write of `I` with five times the register, which needs no reduction. -/
theorem glyphAddressIsFiveTimesVx : Obligations.GlyphAddressIsFiveTimesVx := fun x s =>
  ⟨encodes_of_formX rfl (by decide) (by decide) (by omega), complete_setI_spec (glyphAddr_toNat (s.reg x)) s⟩

/-- Settles O35: with a key number in range both are a skip on its flag. -/
theorem keySkipsReadOneFlag : Obligations.KeySkipsReadOneFlag := by
  intro x s
  refine ⟨?_, ?_, fun h => ⟨execSkp_of_gt h, execSknp_of_gt h⟩, fun k hk => ⟨?_, ?_⟩⟩
  · exact encodes_of_formX rfl (by decide) (by decide) (by omega)
  · exact encodes_of_formX rfl (by decide) (by decide) (by omega)
  · obtain ⟨t, hskip, hrest⟩ := skipIf_spec (P := s.pressed k = true) Iff.rfl s
    exact ⟨t, (execSkp_of_key hk).trans hskip, hrest⟩
  · obtain ⟨t, hskip, hrest⟩ := skipIf_spec (P := s.pressed k = false) (Bool.not_eq_true' _).to_iff s
    exact ⟨t, (execSknp_of_key hk).trans hskip, hrest⟩

end Sys2Proof.Machine
end

section
/-! Block stores and loads: the bytes after a store as `storedOver` gives them, and the state each of `Fx33`, `Fx55`, `Fx65` and
`load_rom` answers (R55, R163 to R166, R213). -/

namespace Sys2Proof.Machine

variable {s t : State} {ps : List Part} {x : Reg}

/-! The bytes stored over a block. -/

theorem storedOver_inside {a n k : Nat} {f : Nat → Byte} (hk : k < n) : storedOver s a n f (a + k) = f k := by
  rw [storedOver, if_pos (by omega), Nat.add_sub_cancel_left]

theorem storedOver_outside {a n b : Nat} {f : Nat → Byte} (hb : b < a ∨ a + n ≤ b) : storedOver s a n f b = s.byte b :=
  if_neg (by omega)

/-- Only the first `n` bytes of the source are stored. -/
theorem storedOver_congr {a n : Nat} {f g : Nat → Byte} (h : ∀ k, k < n → f k = g k) :
    storedOver s a n f = storedOver s a n g := by
  funext b
  simp only [storedOver]
  split
  · exact h _ (by omega)
  · rfl

/-- A block write to a canonical memory, read back at every address (R55, R59). -/
theorem read_writeList {a : Nat} {vs : List Byte} (hm : Memory.wf s.mem = true) (h : a + vs.length ≤ 4096) (b : Nat) :
    Memory.read (Memory.writeList s.mem a vs) b = storedOver s a vs.length (fun k => (vs[k]?).getD 0) b := by
  by_cases hb : a ≤ b ∧ b < a + vs.length
  · obtain ⟨k, rfl⟩ := Nat.exists_eq_add_of_le hb.1
    have hk : k < vs.length := by omega
    rw [storedOver_inside hk, Memory.read_writeList_inside hm h (List.getElem?_eq_getElem hk), List.getElem?_eq_getElem hk,
      Option.getD_some]
  · have hout : b < a ∨ a + vs.length ≤ b := by omega
    rw [storedOver_outside hout, Memory.read_writeList_outside _ hout]
    rfl

/-- A write of memory keeps every frame that has memory in it. -/
theorem OnlyChanges.setMem (h : OnlyChanges ps s t) (hmem : .mem ∈ ps) (m : Memory) : OnlyChanges ps s (t.setMem m) := by
  intro p hp
  have := h p hp
  cases p with
  | mem => exact absurd hmem hp
  | _ => exact this

/-- A block write keeps every byte outside its block, whatever the list of cells. -/
theorem keepsBytesOutside_writeList (s : State) (a : Nat) (vs : List Byte) :
    KeepsBytesOutside a vs.length s (s.setMem (Memory.writeList s.mem a vs)) :=
  fun _ hb => Memory.read_writeList_outside s.mem hb

/-! The stores through `I`. -/

/-- The state a block store answers: the bytes stored from `I` upward, and `pc` past the instruction (R163, R164). -/
def afterStore (bs : List Byte) (s : State) : State := (s.storeBytes bs).setPc (s.pc + 2)

theorem exec_ldBcd_next_iff :
    exec (.ldBcd x) s = .next t ↔ s.i.toNat + 3 ≤ 4096 ∧ t = afterStore (bcdDigits (s.reg x)) s :=
  withRange_complete_iff.trans (and_congr_left' (or_iff_right (by decide)))

theorem exec_storeRegs_next_iff :
    exec (.storeRegs x) s = .next t ↔ s.i.toNat + (x.val + 1) ≤ 4096 ∧ t = afterStore (regBlock x s) s :=
  withRange_complete_iff.trans (and_congr_left' (or_iff_right (Nat.succ_ne_zero _)))

theorem byte_afterStore {bs : List Byte} (hm : Memory.wf s.mem = true) (h : s.i.toNat + bs.length ≤ 4096) :
    (afterStore bs s).byte = storedOver s s.i.toNat bs.length (fun k => (bs[k]?).getD 0) :=
  funext (read_writeList hm h)

theorem keepsBytesOutside_afterStore (bs : List Byte) (s : State) :
    KeepsBytesOutside s.i.toNat bs.length s (afterStore bs s) := keepsBytesOutside_writeList s s.i.toNat bs

theorem onlyChanges_afterStore (bs : List Byte) (s : State) : OnlyChanges [.pc, .mem] s (afterStore bs s) :=
  ((OnlyChanges.refl _ s).setMem (by decide) _).setPc (by decide) _

/-- The bytes `Fx55` stores are the registers, in order (R164). -/
theorem byte_afterStore_regBlock (hm : Memory.wf s.mem = true) (h : s.i.toNat + (x.val + 1) ≤ 4096) {k : Reg} (hk : k ≤ x) :
    (afterStore (regBlock x s) s).byte (s.i.toNat + k.val) = s.reg k := by
  have hle : k.val ≤ x.val := hk
  rw [byte_afterStore hm (by rwa [regBlock_length]), storedOver_inside (by rw [regBlock_length]; omega),
    regBlock_getElem x k s hk, Option.getD_some]

/-- The bytes `Fx33` stores are the three digits (R163). -/
theorem byte_afterStore_bcdDigits (hm : Memory.wf s.mem = true) (h : s.i.toNat + 3 ≤ 4096) (a : Byte) :
    (afterStore (bcdDigits a) s).byte = storedOver s s.i.toNat 3 (fun k => ((bcdDigits a)[k]?).getD 0) :=
  byte_afterStore hm h

/-- A digit fits a byte (R163). -/
theorem ofNat_digit {n : Nat} (h : n < 10) : (BitVec.ofNat 8 n).toNat = n := by
  rw [BitVec.toNat_ofNat]; omega

/-! The load through `I`. -/

/-- A write of all registers keeps every frame that has the registers in it. -/
theorem OnlyChanges.setV (h : OnlyChanges ps s t) (hregs : .regs ∈ ps) (v : Vector Byte 16) :
    OnlyChanges ps s (t.setV v) := by
  intro p hp
  have := h p hp
  cases p with
  | regs => exact absurd hregs hp
  | _ => exact this

/-- The state `Fx65` answers (R165). -/
def afterLoad (x : Reg) (s : State) : State := (s.setV (loadBlock x s)).setPc (s.pc + 2)

theorem exec_loadRegs_next_iff :
    exec (.loadRegs x) s = .next t ↔ s.i.toNat + (x.val + 1) ≤ 4096 ∧ t = afterLoad x s := by
  rw [exec, execLoadRegs, withRange_complete_iff, or_iff_right (Nat.succ_ne_zero _), State.setV_pc, afterLoad]

theorem reg_afterLoad (x k : Reg) (s : State) :
    (afterLoad x s).reg k = if k ≤ x then s.byte (s.i.toNat + k.val) else s.reg k := loadBlock_getElem x k s

theorem onlyChanges_afterLoad (x : Reg) (s : State) : OnlyChanges [.pc, .regs] s (afterLoad x s) :=
  ((OnlyChanges.refl _ s).setV (by decide) _).setPc (by decide) _

/-! Loading a program. -/

theorem opLoadRom_next {bytes : List Byte} (h : opLoadRom bytes s = .next t) :
    bytes.length ≤ 3584 ∧ t = s.setMem (Memory.writeList s.mem 0x200 bytes) := by
  by_cases hlen : bytes.length ≤ 3584
  · exact ⟨hlen, Host.Outcome.next.inj (h.symm.trans (opLoadRom_fits hlen s))⟩
  · exact absurd (h.symm.trans (opLoadRom_tooLarge (by omega) s)) (by simp)

/-- The bytes after a ROM that fits was loaded (R213). -/
theorem byte_loaded {bytes : List Byte} (hm : Memory.wf s.mem = true) (hfit : bytes.length ≤ 3584) :
    (s.setMem (Memory.writeList s.mem 0x200 bytes)).byte =
      storedOver s 0x200 bytes.length (fun k => (bytes[k]?).getD 0) :=
  funext (read_writeList hm (by omega))

/-- A byte of the ROM is at its own place (R213). -/
theorem byte_loaded_inside {bytes : List Byte} (hm : Memory.wf s.mem = true) (hfit : bytes.length ≤ 3584) {k : Nat} {b : Byte}
    (hb : bytes[k]? = some b) : (s.setMem (Memory.writeList s.mem 0x200 bytes)).byte (0x200 + k) = b := by
  obtain ⟨hk, -⟩ := List.getElem?_eq_some_iff.1 hb
  rw [byte_loaded hm hfit, storedOver_inside hk, hb, Option.getD_some]

/-! The fetch after a store. -/

/-- A fetch inside memory reads its two bytes, the lower one high (R54, R64). -/
theorem fetch_eq_of_byte {b : Nat → Byte} (hpc : t.pc.toNat ≤ 0xFFE) (hb : t.byte = b) :
    fetch t = some (wordOfBytes (b t.pc.toNat) (b (t.pc.toNat + 1))) := by
  rw [fetch_inside hpc, ← hb]
  rfl

end Sys2Proof.Machine
end

section
/-! The statements of the memory instructions (42_index_memory R163 to R165, 20_memory R64). -/

namespace Sys2Proof.Machine

/-- Settles O27: the digits are a block store of three bytes. -/
theorem bcdStoresDigits : Obligations.BcdStoresDigits := by
  intro x s hm
  refine ⟨encodes_of_formX rfl (by decide) (by decide) (by omega), fun h => withRange_neg (by omega), fun h => ?_⟩
  have hlt := (s.reg x).isLt
  have hbyte : ∀ k < 3, (afterStore (bcdDigits (s.reg x)) s).byte (s.i.toNat + k) = ((bcdDigits (s.reg x))[k]?).getD 0 :=
    fun k hk => by rw [byte_afterStore_bcdDigits hm (by omega), storedOver_inside hk]
  refine ⟨_, exec_ldBcd_next_iff.2 ⟨by omega, rfl⟩, ?_, ?_, ?_,
    keepsBytesOutside_afterStore (bcdDigits (s.reg x)) s, rfl, onlyChanges_afterStore _ s⟩
  · exact (congrArg BitVec.toNat (hbyte 0 (by decide))).trans (ofNat_digit (by omega))
  · exact (congrArg BitVec.toNat (hbyte 1 (by decide))).trans (ofNat_digit (by omega))
  · exact (congrArg BitVec.toNat (hbyte 2 (by decide))).trans (ofNat_digit (by omega))

/-- Settles O28: the registers are a block store of `x + 1` bytes. -/
theorem storeWritesRegisterBlock : Obligations.StoreWritesRegisterBlock := by
  intro x s hm
  refine ⟨encodes_of_formX rfl (by decide) (by decide) (by omega), fun h => withRange_neg (by omega), fun h => ?_⟩
  refine ⟨_, exec_storeRegs_next_iff.2 ⟨by omega, rfl⟩, fun k hk => byte_afterStore_regBlock hm (by omega) hk, ?_, rfl,
    onlyChanges_afterStore _ s⟩
  rw [← regBlock_length x s]
  exact keepsBytesOutside_afterStore _ s

/-- Settles O29: the load is one write of all registers, of which those above `x` get their own values. -/
theorem loadReadsRegisterBlock : Obligations.LoadReadsRegisterBlock := by
  intro x s
  refine ⟨encodes_of_formX rfl (by decide) (by decide) (by omega), fun h => withRange_neg (by omega), fun h => ?_⟩
  refine ⟨_, exec_loadRegs_next_iff.2 ⟨by omega, rfl⟩, fun k hk => ?_, fun k hk => ?_, rfl, onlyChanges_afterLoad x s⟩
  · rw [reg_afterLoad, if_pos hk]
  · rw [reg_afterLoad, if_neg (not_le.2 hk)]

/-- Settles O30: the load reads the bytes the store wrote, and the store had room for all of them. -/
theorem loadRestoresStoredBlock : Obligations.LoadRestoresStoredBlock := by
  intro x s t u hm hstore hmem hi
  obtain ⟨hfit, rfl⟩ := exec_storeRegs_next_iff.1 hstore
  refine ⟨_, exec_loadRegs_next_iff.2 ⟨by rwa [hi], rfl⟩, fun k hk => ?_⟩
  rw [reg_afterLoad, if_pos hk, hi, ← byte_afterStore_regBlock hm hfit hk, State.byte, hmem]
  rfl

/-- Settles O31: each of the three stores answers a state whose bytes are the stored ones over the old ones. -/
theorem fetchSeesStoredBytes : Obligations.FetchSeesStoredBytes := by
  intro s t hm hpc
  refine ⟨fun x h b hb => fetch_eq_of_byte hpc ?_, fun x h b hb => fetch_eq_of_byte hpc ?_,
    fun bytes h b hb => fetch_eq_of_byte hpc ?_⟩ <;> subst hb
  · obtain ⟨hfit, rfl⟩ := exec_storeRegs_next_iff.1 h
    rw [byte_afterStore hm (by rwa [regBlock_length]), regBlock_length]
    refine storedOver_congr fun k hk => ?_
    have hreg := regBlock_getElem x ⟨k, by omega⟩ s (Fin.mk_le_of_le_val (by omega))
    simp only [hreg]
    simp [State.reg, show k < 16 by omega]
  · obtain ⟨hfit, rfl⟩ := exec_ldBcd_next_iff.1 h
    rw [byte_afterStore_bcdDigits hm hfit]
    refine storedOver_congr fun k hk => ?_
    match k, hk with
    | 0, _ | 1, _ | 2, _ => rfl
  · obtain ⟨hfit, rfl⟩ := opLoadRom_next h
    exact byte_loaded hm hfit

end Sys2Proof.Machine
end

section
/-! The host's operations other than `advance`: their frames, the tick with its tone, and the power-on state (R213 to R217,
R260). -/

namespace Sys2Proof.Machine

variable {s t : State} {ps : List Part}

/-- A committed operation as the host sees it (R212). -/
theorem hostStep_of_next {op : HostOp} (h : invoke op s = .next t) : hostStep op s = (t, .success (tone op s)) := by
  simp [hostStep, h]

/-- A write of the keypad keeps every frame that has the keypad in it. -/
theorem OnlyChanges.setKeys (h : OnlyChanges ps s t) (hkey : .key ∈ ps) (k : Vector Bool Config.numKeys) :
    OnlyChanges ps s (t.setKeys k) := by
  intro p hp
  have := h p hp
  cases p with
  | key => exact absurd hkey hp
  | _ => exact this

/-- Frames with the same parts in them follow each other. -/
theorem OnlyChanges.trans {u : State} (h : OnlyChanges ps s t) (h' : OnlyChanges ps t u) : OnlyChanges ps s u := by
  intro p hp
  have h1 := h p hp
  have h2 := h' p hp
  cases p with
  | stack | host => exact ⟨h2.1.trans h1.1, h2.2.trans h1.2⟩
  | regs | mem => exact fun a => (h2 a).trans (h1 a)
  | _ => exact Eq.trans h2 h1

/-! The tick. -/

/-- The state one tick answers (R216). -/
def ticked (s : State) : State := (s.setDt (tickDown s.dt)).setSt (tickDown s.st)

@[simp] theorem ticked_dt (s : State) : (ticked s).dt = tickDown s.dt := rfl
@[simp] theorem ticked_st (s : State) : (ticked s).st = tickDown s.st := rfl

/-- The tone comes with the tick that finds `st` at 1 (R217). -/
theorem hostStep_advanceTimers (s : State) :
    hostStep .advanceTimers s = (ticked s, .success (decide (s.st.toNat = 1))) := by
  have htone : tone .advanceTimers s = decide (s.st.toNat = 1) := by
    rw [Bool.eq_iff_iff, decide_eq_true_iff]
    exact beq_iff_eq.trans BitVec.toNat_inj.symm
  rw [← htone]
  exact hostStep_of_next rfl

theorem onlyChanges_ticked (s : State) : OnlyChanges [.dt, .st] s (ticked s) :=
  ((OnlyChanges.refl _ s).setDt (by decide) _).setSt (by decide) _

/-! The keypad. -/

theorem opSetKey_of_gt {index : Byte} (h : index.toNat > 15) (pressed : Bool) :
    opSetKey index pressed s = .fault (.invalidKey none index) := by
  simp only [opSetKey, keyNumber_of_gt h, raise]

theorem opSetKey_of_key {index : Byte} {k : Reg} (h : index.toNat = k.val) (pressed : Bool) :
    opSetKey index pressed s = .next (s.setKeys (s.key.set k pressed)) := by
  simp only [opSetKey, keyNumber_of_le h]

theorem opSetKey_next {index : Byte} {pressed : Bool} (h : opSetKey index pressed s = .next t) :
    ∃ k : Reg, index.toNat = k.val ∧ t = s.setKeys (s.key.set k pressed) := by
  by_cases hi : index.toNat > 15
  · exact absurd (h.symm.trans (opSetKey_of_gt hi pressed)) (by simp)
  · refine ⟨⟨index.toNat, by omega⟩, rfl, Host.Outcome.next.inj (h.symm.trans (opSetKey_of_key rfl pressed))⟩

/-- A flag written to the keypad is seen by a read of that key and by no other (R214). -/
theorem pressed_setKeys_set (s : State) (k j : Reg) (b : Bool) :
    (s.setKeys (s.key.set k b)).pressed j = if j = k then b else s.pressed j := by
  simp only [State.pressed, State.setKeys_key, Fin.getElem_fin, Vector.getElem_set, Fin.ext_iff, eq_comm]

/-! The power-on state (R34, R260). -/

/-- Below 80 an unlisted address reads as the font (R52). -/
theorem font_getElem {a : Nat} (h : a < 80) : Config.font[a]? = some (memDefault a) := by
  have hlen : Config.font.length = 80 := rfl
  rw [memDefault, List.getElem?_eq_getElem (hlen ▸ h), Option.getD_some]

/-- What `reset` leaves differs from the power-on state in the inputs only (R260, R261). -/
theorem same_setCore_reset (s : State) {p : Part} (hp : p ∉ [Part.host, Part.picks, Part.rnd, Part.draws]) :
    Same p State.reset (s.setCore CoreState.reset) := by
  cases p with
  | host | picks | rnd | draws => exact absurd (by decide) hp
  | stack => exact ⟨rfl, rfl⟩
  | regs | mem => exact fun _ => rfl
  | _ => rfl

end Sys2Proof.Machine
end

section
/-! The statements of the host's operations (45_host_operations R213 to R217, 70_reset_and_hazards R260 to R263). -/

namespace Sys2Proof.Machine

/-- Settles O38: a tick writes the two timers. -/
theorem tickLowersBothTimers : Obligations.TickLowersBothTimers := fun s =>
  ⟨_, hostStep_advanceTimers s, tickDown_toNat s.dt, tickDown_toNat s.st, onlyChanges_ticked s⟩

/-- Settles O39: by induction on the number of ticks, from the state after the first one. -/
theorem ticksCountDownToZero : Obligations.TicksCountDownToZero := by
  intro n
  induction n with
  | zero => exact fun s => ⟨s, [], rfl, rfl, rfl, OnlyChanges.refl _ s, rfl⟩
  | succ n ih =>
    intro s
    obtain ⟨t, rs, hsession, hdt, hst, hframe, hrs⟩ := ih (ticked s)
    rw [ticked_dt, tickDown_toNat] at hdt
    rw [ticked_st, tickDown_toNat] at hst
    refine ⟨t, .success (decide (s.st.toNat = 1)) :: rs, ?_, by omega, by omega, (onlyChanges_ticked s).trans hframe, ?_⟩
    · rw [List.replicate_succ, session_cons, hostStep_advanceTimers, hsession]
    · have hlater (k : Nat) : (k + 1 = s.st.toNat - 1) ↔ (k + 1 + 1 = s.st.toNat) := by omega
      rw [hrs, List.range_succ_eq_map, List.map_cons, List.map_map]
      simp only [ticked_st, tickDown_toNat, hlater, Nat.zero_add, eq_comm (a := 1)]
      rfl

/-- Settles O40: a key number in range names the one flag that is written. -/
theorem setKeySetsOneFlag : Obligations.SetKeySetsOneFlag := by
  intro index pressed s
  refine ⟨fun h => opSetKey_of_gt h pressed, fun k hk => ⟨_, opSetKey_of_key hk pressed, ?_, fun j hj => ?_, ?_⟩⟩
  · rw [pressed_setKeys_set, if_pos rfl]
  · rw [pressed_setKeys_set, if_neg hj]
  · exact (OnlyChanges.refl _ s).setKeys (by decide) _

/-- Settles O41: a ROM that fits is a block store from 0x200. -/
theorem loadRomCopiesBytes : Obligations.LoadRomCopiesBytes := fun bytes s hm =>
  ⟨fun h => opLoadRom_tooLarge h s, fun h => ⟨_, opLoadRom_fits h s, fun _ _ hb => byte_loaded_inside hm h hb,
    keepsBytesOutside_writeList s 0x200 bytes, (OnlyChanges.refl _ s).setMem (by decide) _⟩⟩

/-- Settles O42: `reset` writes the whole core of the power-on state, part by part the values of R34. -/
theorem resetRestoresPowerOnState : Obligations.ResetRestoresPowerOnState := by
  intro s
  refine ⟨_, hostStep_of_next rfl, fun p hp => same_setCore_reset s hp, fun r => ?_, rfl, rfl, rfl, fun k => ?_, rfl, rfl,
    fun a => font_getElem, fun a => memDefault_above_font, fun k => ?_, fun k => ?_⟩
  · simp [State.reg]
  · simp
  · exact darkFb_pixel _ _
  · simp [State.pressed]

/-- Settles O43: the ROM is stored over the memory of the power-on state, which is zero above the font. -/
theorem bootPlacesProgramAtPc : Obligations.BootPlacesProgramAtPc := by
  intro bytes s hfit
  have hreset : hostStep .reset s = (s.setCore CoreState.reset, .success false) := hostStep_of_next rfl
  have hload : hostStep (.loadRom bytes) (s.setCore CoreState.reset) = (_, .success false) :=
    hostStep_of_next (opLoadRom_fits hfit _)
  refine ⟨_, ?_, rfl, fun k b hb => byte_loaded_inside (s := s.setCore CoreState.reset) rfl hfit hb, fun a hfont ha => ?_⟩
  · simp only [session, hreset, hload]
  · exact (keepsBytesOutside_writeList (s.setCore CoreState.reset) 0x200 bytes a ha).trans (memDefault_above_font hfont)

/-- Settles O44: a condition comes with the state before the operation. -/
theorem conditionLeavesStateUnchanged : Obligations.ConditionLeavesStateUnchanged := by
  intro op ops s t c h
  rcases hostStep_cases op s with ⟨u, -, hu⟩ | ⟨d, -, hd⟩ | ⟨r, -, hr⟩
  · exact absurd (h.symm.trans hu) (by simp)
  · obtain ⟨rfl, hc⟩ := Prod.mk.inj (h.symm.trans hd)
    exact ⟨rfl, by rw [session_cons, h]⟩
  · exact absurd (h.symm.trans hr) (by simp)

end Sys2Proof.Machine
end

section
/-! Placing a word at `pc`: the word is what the next step fetches, and what placing changes (assumption log 7). -/

namespace Sys2Proof.Machine

variable {s t : State} {ps : List Part}

/-- A write of the host's script or plan keeps every frame that has them in it. -/
theorem OnlyChanges.setHost (h : OnlyChanges ps s t) (hhost : .host ∈ ps) (ops : List HostOp) :
    OnlyChanges ps s (t.setHost ops) := by
  intro p hp
  have := h p hp
  cases p with
  | host => exact absurd hhost hp
  | _ => exact this

theorem OnlyChanges.setPlan (h : OnlyChanges ps s t) (hhost : .host ∈ ps) (plan : HostPlan) :
    OnlyChanges ps s (t.setPlan plan) := by
  intro p hp
  have := h p hp
  cases p with
  | host => exact absurd hhost hp
  | _ => exact this

/-- A sixteen-bit table word is the word itself. -/
theorem tableWord_toNat (w : Word) : tableWord 16 w.toNat = w := by
  rw [tableWord, Nat.mod_eq_of_lt w.isLt, BitVec.ofNat_toNat, BitVec.setWidth_eq]

/-- The state with the two bytes of a word stored at `pc`. -/
def withWordAtPc (s : State) (w : Word) : State := s.setMem (Memory.writeList s.mem s.pc.toNat [highByte w, lowByte w])

theorem wordAt_withWordAtPc (hm : Memory.wf s.mem = true) (hpc : s.pc.toNat ≤ 0xFFE) (w : Word) :
    (withWordAtPc s w).wordAt s.pc.toNat = w := by
  have hfit : s.pc.toNat + [highByte w, lowByte w].length ≤ 4096 := by simp only [List.length_cons, List.length_nil]; omega
  have hhigh : (withWordAtPc s w).byte (s.pc.toNat + 0) = highByte w := Memory.read_writeList_inside hm hfit rfl
  have hlow : (withWordAtPc s w).byte (s.pc.toNat + 1) = lowByte w := Memory.read_writeList_inside hm hfit rfl
  rw [State.wordAt, ← Nat.add_zero s.pc.toNat, hhigh, Nat.add_zero, hlow, wordOfBytes_split]

theorem placeWord_of_inside (hpc : s.pc.toNat ≤ 0xFFE) (w : Word) :
    placeWord s w = withWordAtPc ((s.setHost []).setPlan .advancing) w := by
  have hif : s.pc.toNat + 2 ≤ Config.memSize := by simp only [Config.memSize]; omega
  simp only [placeWord, if_pos hif]
  rfl

theorem placeWord_of_outside (hpc : s.pc.toNat > 0xFFE) (w : Word) :
    placeWord s w = withWordAtPc (((s.setPc Config.resetPc).setHost []).setPlan .advancing) w := by
  have hif : ¬ s.pc.toNat + 2 ≤ Config.memSize := by simp only [Config.memSize]; omega
  simp only [placeWord, if_neg hif]
  rfl

/-- A host that only advances runs the word at `pc` next. -/
theorem step_withWordAtPc {i : Instr} (hm : Memory.wf s.mem = true) (hpc : s.pc.toNat ≤ 0xFFE) (hhost : s.host = [])
    (hplan : s.plan = .advancing) :
    step (withWordAtPc s (encode i)) = endCycle (exec i ((withWordAtPc s (encode i)).withRnd none)) := by
  have hi : decodeWord ((withWordAtPc s (encode i)).wordAt s.pc.toNat) = .ok i := by
    rw [wordAt_withWordAtPc hm hpc, decodeWord_encode]
  rw [step_of_advancing (s := withWordAtPc s (encode i)) hhost hplan]
  exact advance_of_decodes (s := withWordAtPc s (encode i)) hpc hi none

end Sys2Proof.Machine
end

section
/-! The statement of placing (assumption log 7). -/

namespace Sys2Proof.Machine

/-- Settles O7: the word is placed at `pc`, or at `RESET_PC` for a `pc` outside memory, and is fetched from there. -/
theorem placedInstructionRuns : Obligations.PlacedInstructionRuns := by
  intro s i hm
  rw [State.withFetchWord, tableWord_toNat]
  refine ⟨?_, fun hpc => ?_⟩
  · rcases Nat.lt_or_ge 0xFFE s.pc.toNat with hpc | hpc
    · rw [placeWord_of_outside hpc]
      exact step_withWordAtPc hm (by decide : Config.resetPc.toNat ≤ 0xFFE) rfl rfl
    · rw [placeWord_of_inside hpc]
      exact step_withWordAtPc hm hpc rfl rfl
  · rw [placeWord_of_inside hpc]
    exact ⟨keepsBytesOutside_writeList s s.pc.toNat [_, _],
      (((OnlyChanges.refl _ s).setHost (by decide) []).setPlan (by decide) .advancing).setMem (by decide) _⟩

end Sys2Proof.Machine
end

section
/-! The conditions of execution (60_exceptions R231 to R241): when each instruction raises its one condition. -/

namespace Sys2Proof.Machine

variable {s : State}

/-- The cause of the one condition of an instruction, as the rows of R231 give it; an instruction with no condition has no
cause (R234, R235, R237, R238). -/
def Blocked (s : State) : Instr → Prop
  | .ret => s.sp.val = 0
  | .call _ => s.sp.val = 16
  | .skp x | .sknp x => (s.reg x).toNat > 15
  | .drw _ _ n => n.val > 0 ∧ s.i.toNat + n.val - 1 > 0xFFF
  | .ldBcd _ => s.i.toNat + 2 > 0xFFF
  | .storeRegs x | .loadRegs x => s.i.toNat + x.val > 0xFFF
  | _ => False

/-- What raising the condition of an instruction answers: that condition with its record (R239, R241). -/
def RaisesOwn (i : Instr) (s : State) : Prop :=
  ∃ c, exec i s = .fault c ∧ executionCondition i = some c.code ∧ c.faultPc = some s.pc ∧ c.faultWord = some (encode i)

/-- An instruction whose bytes are range-checked is blocked exactly when they do not all exist (R238). -/
theorem withRange_spec {i : Instr} {n : Nat} {u : State} (hexec : exec i s = withRange (encode i) n s (complete u))
    (hcond : executionCondition i = some 7) (hblock : Blocked s i ↔ ¬ (n = 0 ∨ s.i.toNat + n ≤ 4096)) :
    (¬ Blocked s i ∧ ∃ t, exec i s = .next t) ∨ (Blocked s i ∧ RaisesOwn i s) := by
  rw [RaisesOwn, hexec, hblock]
  by_cases h : n = 0 ∨ s.i.toNat + n ≤ 4096
  · exact .inl ⟨not_not.2 h, _, withRange_pos h⟩
  · exact .inr ⟨h, _, withRange_neg h, hcond, rfl, rfl⟩

/-- Everything an instruction can do: commit, or raise its own condition when it is blocked (R241). -/
theorem exec_cases (i : Instr) (s : State) :
    (¬ Blocked s i ∧ ∃ t, exec i s = .next t) ∨ (Blocked s i ∧ RaisesOwn i s) := by
  cases i with
  | ret =>
    rcases Nat.eq_zero_or_pos s.sp.val with h | h
    · exact .inr ⟨h, _, execRet_empty h, rfl, rfl, rfl⟩
    · exact .inl ⟨h.ne', _, execRet_entry h⟩
  | call nnn =>
    rcases (sp_le s).lt_or_eq with h | h
    · exact .inl ⟨h.ne, _, execCall_room nnn h⟩
    · exact .inr ⟨h, _, execCall_full nnn h, rfl, rfl, rfl⟩
  | skp x =>
    by_cases h : (s.reg x).toNat > 15
    · exact .inr ⟨h, _, execSkp_of_gt h, rfl, rfl, rfl⟩
    · obtain ⟨c, hc⟩ := execSkp_of_le h
      exact .inl ⟨h, _, hc.trans (skipIf_eq c s)⟩
  | sknp x =>
    by_cases h : (s.reg x).toNat > 15
    · exact .inr ⟨h, _, execSknp_of_gt h, rfl, rfl, rfl⟩
    · obtain ⟨c, hc⟩ := execSknp_of_le h
      exact .inl ⟨h, _, hc.trans (skipIf_eq c s)⟩
  | ldKey x =>
    refine .inl ⟨id, ?_⟩
    cases h : lowestPressed s with
    | none => exact ⟨s, execLdKey_of_no_key x (lowestPressed_none_iff.1 h)⟩
    | some k => exact ⟨_, by simp only [exec, execLdKey, h]; exact complete_eq _⟩
  | drw x y n => exact withRange_spec rfl rfl (by simp only [Blocked]; omega)
  | ldBcd x => exact withRange_spec rfl rfl (by simp only [Blocked]; omega)
  | storeRegs x | loadRegs x => exact withRange_spec rfl rfl (by simp only [Blocked]; omega)
  | _ => exact .inl ⟨id, _, rfl⟩

theorem raisesOwn_of_blocked {i : Instr} (h : Blocked s i) : RaisesOwn i s :=
  (exec_cases i s).elim (fun h' => absurd h h'.1) And.right

theorem blocked_of_fault {i : Instr} {c : Fault} (h : exec i s = .fault c) : Blocked s i := by
  rcases exec_cases i s with ⟨-, t, ht⟩ | ⟨hb, -⟩
  · exact absurd (ht.symm.trans h) (by simp)
  · exact hb

/-- The condition an instruction raises is its own, with its record (R239). -/
theorem condition_of_fault {i : Instr} {c : Fault} (h : exec i s = .fault c) :
    executionCondition i = some c.code ∧ c.faultPc = some s.pc ∧ c.faultWord = some (encode i) := by
  obtain ⟨d, hd, hrest⟩ := raisesOwn_of_blocked (blocked_of_fault h)
  exact Host.Outcome.fault.inj (hd.symm.trans h) ▸ hrest

/-- An instruction with no condition of its own has no cause to raise one. -/
theorem not_blocked_of_no_condition {i : Instr} (h : executionCondition i = none) : ¬ Blocked s i := by
  intro hb
  obtain ⟨c, -, hc, -⟩ := raisesOwn_of_blocked hb
  simp [h] at hc

end Sys2Proof.Machine
end

section
/-! The code an operation answers, and its cause (R231). -/

namespace Sys2Proof.Machine

variable {op : HostOp} {s : State} {i : Instr}

/-- The cause of each code, row by row of R231; code 0 is no condition and code 5 has no cause (R231 to R238). -/
def Cause (op : HostOp) (s : State) : Nat → Prop
  | 1 => ∃ bytes, op = .loadRom bytes ∧ 0x200 + bytes.length > 4096
  | 2 => (∃ b, op = .advance b) ∧ s.pc.toNat ≤ 0xFFE ∧ ∀ r ∈ opcodeRows, s.wordAt s.pc.toNat &&& r.mask ≠ r.code
  | 3 => Runs op s .ret ∧ s.sp.val = 0
  | 4 => (∃ index pressed, op = .setKey index pressed ∧ index.toNat > 15) ∨
      ∃ x, (Runs op s (.skp x) ∨ Runs op s (.sknp x)) ∧ (s.reg x).toNat > 15
  | 6 => ∃ nnn, Runs op s (.call nnn) ∧ s.sp.val = 16
  | 7 => ((∃ b, op = .advance b) ∧ s.pc.toNat > 0xFFE) ∨
      (∃ x y n, Runs op s (.drw x y n) ∧ n.val > 0 ∧ s.i.toNat + n.val - 1 > 0xFFF) ∨
      (∃ x, Runs op s (.ldBcd x) ∧ s.i.toNat + 2 > 0xFFF) ∨
      ∃ x, (Runs op s (.storeRegs x) ∨ Runs op s (.loadRegs x)) ∧ s.i.toNat + x.val > 0xFFF
  | _ => False

/-- The random input is no cause of a condition. -/
theorem blocked_withRnd (r : Option Byte) : Blocked (s.withRnd r) i ↔ Blocked s i := by
  cases i <;> rfl

/-- An `advance` onto a blocked instruction answers the condition of that instruction (R241). -/
theorem fault_of_blocked (hruns : Runs op s i) (hblocked : Blocked s i) {k : Nat} (hk : executionCondition i = some k) :
    ∃ c, invoke op s = .fault c ∧ c.code = k := by
  obtain ⟨⟨b, rfl⟩, hpc, hi⟩ := hruns
  obtain ⟨c, hc, hcode, -⟩ := raisesOwn_of_blocked ((blocked_withRnd (some b)).2 hblocked)
  refine ⟨c, ?_, Option.some.inj (hcode.symm.trans hk)⟩
  rw [invoke, advance_of_decodes hpc hi, hc, endCycle_fault]

theorem fault_of_cause : ∀ {k : Nat}, Cause op s k → ∃ c, invoke op s = .fault c ∧ c.code = k
  | 1, ⟨_, hop, hlen⟩ => hop ▸ ⟨_, opLoadRom_tooLarge (by omega) s, rfl⟩
  | 2, ⟨⟨b, hop⟩, hpc, hrow⟩ => hop ▸ ⟨_, advance_of_no_row hpc hrow (some b), rfl⟩
  | 3, ⟨hruns, h⟩ => fault_of_blocked hruns h rfl
  | 4, .inl ⟨_, pressed, hop, h⟩ => hop ▸ ⟨_, opSetKey_of_gt h pressed, rfl⟩
  | 4, .inr ⟨_, .inl hruns, h⟩ => fault_of_blocked hruns h rfl
  | 4, .inr ⟨_, .inr hruns, h⟩ => fault_of_blocked hruns h rfl
  | 6, ⟨_, hruns, h⟩ => fault_of_blocked hruns h rfl
  | 7, .inl ⟨⟨b, hop⟩, hpc⟩ => hop ▸ ⟨_, advance_outside hpc (some b), rfl⟩
  | 7, .inr (.inl ⟨_, _, _, hruns, h⟩) => fault_of_blocked hruns h rfl
  | 7, .inr (.inr (.inl ⟨_, hruns, h⟩)) => fault_of_blocked hruns h rfl
  | 7, .inr (.inr (.inr ⟨_, .inl hruns, h⟩)) => fault_of_blocked hruns h rfl
  | 7, .inr (.inr (.inr ⟨_, .inr hruns, h⟩)) => fault_of_blocked hruns h rfl

/-- A blocked instruction is one of the causes of its code. -/
theorem cause_of_blocked (hruns : Runs op s i) (hblocked : Blocked s i) {k : Nat} (hk : executionCondition i = some k) :
    Cause op s k := by
  cases i with
  | ret => cases hk; exact ⟨hruns, hblocked⟩
  | call nnn => cases hk; exact ⟨nnn, hruns, hblocked⟩
  | skp x => cases hk; exact .inr ⟨x, .inl hruns, hblocked⟩
  | sknp x => cases hk; exact .inr ⟨x, .inr hruns, hblocked⟩
  | drw x y n => cases hk; exact .inr (.inl ⟨x, y, n, hruns, hblocked⟩)
  | ldBcd x => cases hk; exact .inr (.inr (.inl ⟨x, hruns, hblocked⟩))
  | storeRegs x => cases hk; exact .inr (.inr (.inr ⟨x, .inl hruns, hblocked⟩))
  | loadRegs x => cases hk; exact .inr (.inr (.inr ⟨x, .inr hruns, hblocked⟩))
  | _ => exact absurd hblocked id

/-- An `advance` that raises does so at the fetch, at dispatch, or in the instruction it runs (R241). -/
theorem cause_of_advance_fault {b : Byte} {c : Fault} (h : advance (some b) s = .fault c) : Cause (.advance b) s c.code := by
  rcases advance_cases (some b) s with ⟨hpc, hf⟩ | ⟨hpc, ⟨e, he⟩, hf⟩ | ⟨hpc, i, hi, hf⟩
  · obtain rfl := Host.Outcome.fault.inj (h.symm.trans hf)
    exact .inl ⟨⟨b, rfl⟩, hpc⟩
  · obtain rfl := Host.Outcome.fault.inj (h.symm.trans hf)
    exact ⟨⟨b, rfl⟩, hpc, no_row_of_decodeWord_error he⟩
  · have hfault := endCycle_fault_iff.1 (hf.symm.trans h)
    exact cause_of_blocked ⟨⟨b, rfl⟩, hpc, hi⟩ ((blocked_withRnd _).1 (blocked_of_fault hfault))
      (condition_of_fault hfault).1

theorem cause_of_fault {c : Fault} (h : invoke op s = .fault c) : Cause op s c.code := by
  cases op with
  | advance b => exact cause_of_advance_fault h
  | advanceTimers | reset => cases h
  | setKey index pressed =>
    by_cases hi : index.toNat > 15
    · obtain rfl := Host.Outcome.fault.inj (h.symm.trans (opSetKey_of_gt hi pressed))
      exact .inl ⟨index, pressed, rfl, hi⟩
    · exact absurd (h.symm.trans (opSetKey_of_key (k := ⟨index.toNat, by omega⟩) rfl pressed)) (by simp)
  | loadRom bytes =>
    by_cases hlen : bytes.length > 3584
    · obtain rfl := Host.Outcome.fault.inj (h.symm.trans (opLoadRom_tooLarge hlen s))
      exact ⟨bytes, rfl, by omega⟩
    · exact absurd (h.symm.trans (opLoadRom_fits (by omega) s)) (by simp)

/-- What an operation answers has a code: 0 for a success, the positive one of its condition else (R212, R231). -/
theorem replyCode_cases (op : HostOp) (s : State) :
    (∃ t, invoke op s = .next t ∧ (hostStep op s).2.code = some 0) ∨
    ∃ c, invoke op s = .fault c ∧ (hostStep op s).2.code = some c.code := by
  rcases hostStep_cases op s with ⟨t, ht, h⟩ | ⟨c, hc, h⟩ | ⟨r, hr, -⟩
  · exact .inl ⟨t, ht, by rw [h, Reply.code_success]⟩
  · exact .inr ⟨c, hc, by rw [h, Reply.code_condition]⟩
  · exact absurd hr ((noDefect_invoke op s).2 r)

theorem replyCode_eq_zero_iff : (hostStep op s).2.code = some 0 ↔ ∃ t, invoke op s = .next t := by
  rcases replyCode_cases op s with ⟨t, ht, h⟩ | ⟨c, hc, h⟩
  · simp [h, ht]
  · simp [h, hc, c.code_pos.ne']

theorem replyCode_eq_iff_cause {k : Nat} (hk : k ≠ 0) : (hostStep op s).2.code = some k ↔ Cause op s k := by
  constructor
  · intro hcode
    rcases replyCode_cases op s with ⟨t, -, h⟩ | ⟨c, hc, h⟩
    · exact absurd (Option.some.inj (hcode.symm.trans h)) hk
    · obtain rfl := Option.some.inj (hcode.symm.trans h)
      exact cause_of_fault hc
  · intro hcause
    obtain ⟨c, hc, rfl⟩ := fault_of_cause hcause
    rw [hostStep_of_fault hc, Reply.code_condition]

end Sys2Proof.Machine
end

section
/-! The statements of the conditions of execution and of their codes (60_exceptions R231 to R241). -/

namespace Sys2Proof.Machine

/-- Settles O45: an instruction commits, or raises its own condition when it is blocked. -/
theorem eachInstructionHasOneCondition : Obligations.EachInstructionHasOneCondition := fun i s =>
  ⟨fun _ => condition_of_fault, fun hnone =>
    (exec_cases i s).elim And.right fun h => absurd h.1 (not_blocked_of_no_condition hnone)⟩

/-- Settles O46: every condition has its cause, and every cause raises its condition. -/
theorem replyCodeTellsTheCause : Obligations.ReplyCodeTellsTheCause := by
  rintro op s code rfl
  refine ⟨?_, replyCode_eq_zero_iff, replyCode_eq_iff_cause (by decide), replyCode_eq_iff_cause (by decide),
    replyCode_eq_iff_cause (by decide), replyCode_eq_iff_cause (by decide),
    (replyCode_eq_iff_cause (k := 5) (by decide)).1, replyCode_eq_iff_cause (by decide), replyCode_eq_iff_cause (by decide)⟩
  rcases replyCode_cases op s with ⟨_, _, h⟩ | ⟨_, _, h⟩ <;> simp [h]

end Sys2Proof.Machine
end

section
/-! The writer table of the instructions (R36): for every instruction that answers a next state, the parts, the registers and
the bytes it may have changed. -/

namespace Sys2Proof.Machine

variable {s t : State} {i : Instr}

/-- What a rule says of the one state an operation answers holds of the state it is known to answer. -/
theorem of_next_spec {r : Result} {Q : State → Prop} (hspec : ∃ t, r = .next t ∧ Q t) (h : r = .next t) : Q t := by
  obtain ⟨u, hu, hQ⟩ := hspec
  exact Host.Outcome.next.inj (h.symm.trans hu) ▸ hQ

theorem skipIf_next_iff {c : Bool} : skipIf c s = .next t ↔ t = s.setPc (s.pc + if c then 4 else 2) := by
  rw [skipIf_eq, Host.Outcome.next.injEq, eq_comm]

/-! A key skip that answers a next state had a key to read (R190, R191). -/

theorem execSkp_next {x : Reg} (h : execSkp x s = .next t) : ∃ c, skipIf c s = .next t := by
  by_cases hx : (s.reg x).toNat > 15
  · exact absurd ((execSkp_of_gt hx).symm.trans h) (by simp)
  · obtain ⟨c, hc⟩ := execSkp_of_le hx
    exact ⟨c, hc.symm.trans h⟩

theorem execSknp_next {x : Reg} (h : execSknp x s = .next t) : ∃ c, skipIf c s = .next t := by
  by_cases hx : (s.reg x).toNat > 15
  · exact absurd ((execSknp_of_gt hx).symm.trans h) (by simp)
  · obtain ⟨c, hc⟩ := execSknp_of_le hx
    exact ⟨c, hc.symm.trans h⟩

/-- The wait for a key ends where it began, or with a write of one register (R192). -/
theorem execLdKey_next {x : Reg} (h : execLdKey x s = .next t) :
    t = s ∨ ∃ k : Reg, complete (s.setReg x (BitVec.ofNat 8 k.val)) = .next t := by
  cases hk : lowestPressed s with
  | none => exact .inl (Host.Outcome.next.inj (h.symm.trans (execLdKey_of_no_key x (lowestPressed_none_iff.1 hk))))
  | some k => exact .inr ⟨k, by simpa only [execLdKey, hk] using h⟩

/-- A return that answers a next state had an entry to take (R105). -/
theorem execRet_next_iff : execRet s = .next t ↔ ∃ h : 0 < s.sp.val,
    t = (s.setStack s.stack ⟨s.sp.val - 1, by omega⟩).setPc (s.stack[s.sp.val - 1]'(by omega)) := by
  rcases Nat.eq_zero_or_pos s.sp.val with h | h
  · simp [execRet_empty h, h]
  · simp [execRet_entry h, h, eq_comm]

/-- The row of the writer table that one instruction keeps (R22, R36, R163, R164). -/
def KeepsRow (i : Instr) (s t : State) : Prop :=
  OnlyChanges (mayChange i) s t ∧ KeepsRegs (mayWriteRegs i) s t ∧
    KeepsBytesOutside (storeRange i s).1 (storeRange i s).2 s t

/-- An instruction that answers a next state keeps its row: the frames of the writes it makes. -/
theorem keepsRow_of_exec (h : exec i s = .next t) : KeepsRow i s t := by
  cases i with
  | nop =>
    obtain rfl := complete_next_iff.1 h
    exact ⟨onlyChanges_setPc s _, fun _ _ => rfl, fun _ _ => rfl⟩
  | jp | jpV0 =>
    obtain rfl := jumpTo_next_iff.1 h
    exact ⟨onlyChanges_setPc s _, fun _ _ => rfl, fun _ _ => rfl⟩
  | seImm | sneImm | seReg | sneReg =>
    obtain rfl := skipIf_next_iff.1 h
    exact ⟨onlyChanges_setPc s _, fun _ _ => rfl, fun _ _ => rfl⟩
  | skp =>
    obtain ⟨c, hskip⟩ := execSkp_next h
    obtain rfl := skipIf_next_iff.1 hskip
    exact ⟨onlyChanges_setPc s _, fun _ _ => rfl, fun _ _ => rfl⟩
  | sknp =>
    obtain ⟨c, hskip⟩ := execSknp_next h
    obtain rfl := skipIf_next_iff.1 hskip
    exact ⟨onlyChanges_setPc s _, fun _ _ => rfl, fun _ _ => rfl⟩
  | ret =>
    obtain ⟨_, rfl⟩ := execRet_next_iff.1 h
    exact ⟨((OnlyChanges.refl [.pc, .stack] s).setStack (by decide) _ _).setPc (by decide) _, fun _ _ => rfl, fun _ _ => rfl⟩
  | call =>
    obtain ⟨_, rfl⟩ := execCall_next_iff.1 h
    exact ⟨((OnlyChanges.refl [.pc, .stack] s).setStack (by decide) _ _).setPc (by decide) _, fun _ _ => rfl, fun _ _ => rfl⟩
  | ldImm x | addImm x | ldReg x | orReg x | andReg x | xorReg x | ldFromDt x =>
    obtain ⟨-, -, hregs, hframe⟩ := of_next_spec (complete_setReg_spec (P := fun _ => True) trivial x s) h
    exact ⟨hframe, hregs, fun a _ => hframe .mem (by decide) a⟩
  | ldKey x =>
    obtain rfl | ⟨k, hk⟩ := execLdKey_next h
    · exact ⟨OnlyChanges.refl _ _, fun _ _ => rfl, fun _ _ => rfl⟩
    · obtain ⟨-, -, hregs, hframe⟩ := of_next_spec (complete_setReg_spec (P := fun _ => True) trivial x s) hk
      exact ⟨hframe, hregs, fun a _ => hframe .mem (by decide) a⟩
  | addReg x | subReg x | subnReg x =>
    obtain ⟨-, -, -, hregs, hframe⟩ := of_next_spec (complete_flagStands_spec rfl (P := fun _ => True) trivial x _ s) h
    exact ⟨hframe, hregs, fun a _ => hframe .mem (by decide) a⟩
  | shr x | shl x =>
    obtain ⟨-, -, -, hregs, hframe⟩ := of_next_spec (complete_resultStands_spec rfl (P := fun _ => True) trivial x _ s) h
    exact ⟨hframe, hregs, fun a _ => hframe .mem (by decide) a⟩
  | rnd x nn =>
    obtain ⟨-, -, hregs, hframe⟩ := of_next_spec (exec_rnd_spec x nn s) h
    exact ⟨hframe, hregs, fun a _ => hframe .mem (by decide) a⟩
  | ldI | addI | ldGlyph =>
    obtain ⟨-, -, hframe⟩ := of_next_spec (complete_setI_spec rfl s) h
    exact ⟨hframe, fun r _ => hframe .regs (by decide) r, fun a _ => hframe .mem (by decide) a⟩
  | cls =>
    obtain rfl := complete_next_iff.1 h
    exact ⟨((OnlyChanges.refl _ s).setFb (by decide) _).setPc (by decide) _, fun _ _ => rfl, fun _ _ => rfl⟩
  | drw x y n =>
    obtain ⟨-, rfl⟩ := exec_drw_next_iff.1 h
    exact ⟨onlyChanges_afterDraw x y n s, keepsRegs_afterDraw x y n s, fun _ _ => rfl⟩
  | ldDt =>
    obtain rfl := complete_next_iff.1 h
    exact ⟨((OnlyChanges.refl [.pc, .dt] s).setDt (by decide) _).setPc (by decide) _, fun _ _ => rfl, fun _ _ => rfl⟩
  | ldSt =>
    obtain rfl := complete_next_iff.1 h
    exact ⟨((OnlyChanges.refl [.pc, .st] s).setSt (by decide) _).setPc (by decide) _, fun _ _ => rfl, fun _ _ => rfl⟩
  | ldBcd x =>
    obtain ⟨-, rfl⟩ := exec_ldBcd_next_iff.1 h
    exact ⟨onlyChanges_afterStore _ s, fun _ _ => rfl, keepsBytesOutside_afterStore (bcdDigits (s.reg x)) s⟩
  | storeRegs x =>
    obtain ⟨-, rfl⟩ := exec_storeRegs_next_iff.1 h
    refine ⟨onlyChanges_afterStore _ s, fun _ _ => rfl, ?_⟩
    rw [storeRange, ← regBlock_length x s]
    exact keepsBytesOutside_afterStore _ s
  | loadRegs x =>
    obtain ⟨-, rfl⟩ := exec_loadRegs_next_iff.1 h
    refine ⟨onlyChanges_afterLoad x s, fun k hk => ?_, fun a _ => onlyChanges_afterLoad x s .mem (by decide) a⟩
    rw [reg_afterLoad, if_neg fun hle => hk (by simpa [mayWriteRegs] using hle)]

/-! What the table has no row for. -/

theorem key_not_mem_mayChange (i : Instr) : Part.key ∉ mayChange i := by
  cases i <;> simp [mayChange]

theorem host_not_mem_mayChange (i : Instr) : Part.host ∉ mayChange i := by
  cases i <;> simp [mayChange]

theorem picks_not_mem_mayChange (i : Instr) : Part.picks ∉ mayChange i := by
  cases i <;> simp [mayChange]

theorem fb_mem_mayChange (h : Part.fb ∈ mayChange i) : i = .cls ∨ ∃ x y n, i = .drw x y n := by
  cases i with
  | cls => exact .inl rfl
  | drw x y n => exact .inr ⟨x, y, n, rfl⟩
  | _ => simp [mayChange] at h

theorem stack_mem_mayChange (h : Part.stack ∈ mayChange i) : i = .ret ∨ ∃ nnn, i = .call nnn := by
  cases i with
  | ret => exact .inl rfl
  | call nnn => exact .inr ⟨nnn, rfl⟩
  | _ => simp [mayChange] at h

/-- The only slot an instruction writes is the one a call fills (R26). -/
theorem stack_slot_of_exec (h : exec i s = .next t) {k : Fin 16} (hk : t.stack[k] ≠ s.stack[k]) :
    (∃ nnn, i = .call nnn) ∧ k.val = s.sp.val := by
  obtain ⟨hframe, -⟩ := keepsRow_of_exec h
  have hmem : Part.stack ∈ mayChange i := by
    by_contra hout
    exact hk (by rw [(hframe .stack hout).1])
  obtain rfl | ⟨nnn, rfl⟩ := stack_mem_mayChange hmem
  · obtain ⟨_, rfl⟩ := execRet_next_iff.1 h
    exact absurd rfl hk
  · obtain ⟨_, rfl⟩ := execCall_next_iff.1 h
    refine ⟨⟨nnn, rfl⟩, by_contra fun hne => hk ?_⟩
    simp [Ne.symm hne]

/-! An operation that answers a next state (R210, R212). -/

theorem invoke_of_success {op : HostOp} {b : Bool} (h : hostStep op s = (t, .success b)) : invoke op s = .next t := by
  rcases hostStep_cases op s with ⟨u, hu, hstep⟩ | ⟨c, -, hstep⟩ | ⟨r, -, hstep⟩
  · rw [hu, (Prod.mk.inj (h.symm.trans hstep)).1]
  · exact absurd (h.symm.trans hstep) (by simp)
  · exact absurd (h.symm.trans hstep) (by simp)

/-- A cycle that commits fetched and ran an instruction, and its input is taken off (R32, R100). -/
theorem advance_next {r : Option Byte} (h : advance r s = .next t) : ∃ i u, s.pc.toNat ≤ 0xFFE ∧
    decodeWord (s.wordAt s.pc.toNat) = .ok i ∧ exec i (s.withRnd r) = .next u ∧ t = u.withRnd none := by
  rcases advance_cases r s with ⟨-, hf⟩ | ⟨-, -, hf⟩ | ⟨hpc, i, hi, hrun⟩
  · exact absurd (h.symm.trans hf) (by simp)
  · exact absurd (h.symm.trans hf) (by simp)
  · obtain ⟨u, hu, ht⟩ := endCycle_next_iff.1 (hrun.symm.trans h)
    exact ⟨i, u, hpc, hi, hu, ht⟩

/-- The random input put on before an instruction and taken off after it is the one part more that may change. -/
theorem OnlyChanges.of_withRnd {ps : List Part} {r : Option Byte} (h : OnlyChanges ps (s.withRnd r) t) :
    OnlyChanges (.rnd :: ps) s (t.withRnd none) := by
  intro p hp
  have := h p (List.not_mem_of_not_mem_cons hp)
  cases p with
  | rnd => exact absurd List.mem_cons_self hp
  | _ => exact this

end Sys2Proof.Machine
end

section
/-! The statements of the writer table (10_state R36). -/

namespace Sys2Proof.Machine

/-- Settles O48: every instruction keeps its row, and no row has the keypad in it. -/
theorem instructionsKeepWriterTable : Obligations.InstructionsKeepWriterTable := by
  intro i s t h
  obtain ⟨hframe, hregs, hbytes⟩ := keepsRow_of_exec h
  refine ⟨hframe, hregs, hbytes, fun k hk => stack_slot_of_exec h hk, hframe .key (key_not_mem_mayChange i), fun hfb => ?_⟩
  exact fb_mem_mayChange (by_contra fun hout => hfb (hframe .fb hout))

/-- Settles O49: each operation is the writes it makes, and an `advance` those of the instruction it runs. -/
theorem operationsKeepWriterTable : Obligations.OperationsKeepWriterTable := by
  refine fun op s t => ⟨fun c h => (conditionLeavesStateUnchanged op [] s t c h).1, fun b h => ?_⟩
  have hnext := invoke_of_success h
  cases op with
  | advance r =>
    obtain ⟨i, u, -, hi, hexec, rfl⟩ := advance_next hnext
    obtain ⟨hframe, hregs, hbytes⟩ := keepsRow_of_exec hexec
    exact ⟨hframe .host (host_not_mem_mayChange i), hframe .picks (picks_not_mem_mayChange i),
      hframe .key (key_not_mem_mayChange i), i, hi, hframe.of_withRnd, hregs, hbytes⟩
  | advanceTimers =>
    obtain rfl : ticked s = t := Host.Outcome.next.inj hnext
    exact ⟨⟨rfl, rfl⟩, rfl, onlyChanges_ticked s⟩
  | setKey index pressed =>
    obtain ⟨k, hk, rfl⟩ := opSetKey_next hnext
    refine ⟨⟨rfl, rfl⟩, rfl, (OnlyChanges.refl _ s).setKeys (by decide) _, fun j hj => ?_⟩
    rw [pressed_setKeys_set, if_neg fun hjk => hj (by rw [hjk, hk])]
  | loadRom bytes =>
    obtain ⟨-, rfl⟩ := opLoadRom_next hnext
    exact ⟨⟨rfl, rfl⟩, rfl, (OnlyChanges.refl _ s).setMem (by decide) _, keepsBytesOutside_writeList s 0x200 bytes⟩
  | reset =>
    obtain rfl : s.setCore CoreState.reset = t := Host.Outcome.next.inj hnext
    refine ⟨⟨rfl, rfl⟩, rfl, fun p hp => ?_⟩
    obtain rfl | rfl : p = .rnd ∨ p = .draws := by simpa using hp
    · rfl
    · rfl

end Sys2Proof.Machine
end

section
/-! What an instruction does to `pc`, the stack and the cells of memory, and the invariant through the host's operations
(R25, R32, R67). -/

namespace Sys2Proof.Machine

variable {s t : State} {i : Instr}

/-- The five ways an instruction leaves `pc`, the stack and the cells of memory (R100 to R113). -/
inductive Flow (s : State) : State → Prop
  /-- On to the next instruction, with whatever other writes. -/
  | straight {t : State} (hpc : t.pc = s.pc + 2) (hstack : t.stack = s.stack) (hsp : t.sp = s.sp) (hmem : t.mem = s.mem) :
      Flow s t
  /-- A skip, a wait, or a jump to a target that has its own bound. -/
  | jump {a : Word} (ha : a = s.pc ∨ (∃ c : Bool, a = s.pc + if c then 4 else 2) ∨ a.toNat ≤ 0x10FE) : Flow s (s.setPc a)
  /-- A block store that fits. -/
  | store (bs : List Byte) (hfit : s.i.toNat + bs.length ≤ 4096) : Flow s (afterStore bs s)
  /-- A return to the top entry. -/
  | ret (h : 0 < s.sp.val) :
      Flow s ((s.setStack s.stack ⟨s.sp.val - 1, by omega⟩).setPc (s.stack[s.sp.val - 1]'(by omega)))
  /-- A call with a free slot. -/
  | call (nnn : Addr12) (h : s.sp.val < 16) :
      Flow s ((s.setStack (s.stack.set s.sp.val (s.pc + 2)) ⟨s.sp.val + 1, Nat.succ_lt_succ h⟩).setPc (zextAddr nnn))

theorem flow_of_exec (h : exec i s = .next t) : Flow s t := by
  cases i with
  | ret =>
    obtain ⟨hsp, rfl⟩ := execRet_next_iff.1 h
    exact .ret hsp
  | call nnn =>
    obtain ⟨hsp, rfl⟩ := execCall_next_iff.1 h
    exact .call nnn hsp
  | jp nnn =>
    obtain rfl := jumpTo_next_iff.1 h
    have := nnn.isLt
    exact .jump (.inr (.inr (by rw [zextAddr_toNat]; omega)))
  | jpV0 nnn =>
    obtain rfl := jumpTo_next_iff.1 h
    have := nnn.isLt; have := (s.reg 0).isLt
    exact .jump (.inr (.inr (by rw [indexedTarget_toNat]; omega)))
  | seImm | sneImm | seReg | sneReg =>
    obtain rfl := skipIf_next_iff.1 h
    exact .jump (.inr (.inl ⟨_, rfl⟩))
  | skp =>
    obtain ⟨c, hskip⟩ := execSkp_next h
    obtain rfl := skipIf_next_iff.1 hskip
    exact .jump (.inr (.inl ⟨c, rfl⟩))
  | sknp =>
    obtain ⟨c, hskip⟩ := execSknp_next h
    obtain rfl := skipIf_next_iff.1 hskip
    exact .jump (.inr (.inl ⟨c, rfl⟩))
  | ldKey x =>
    obtain rfl | ⟨k, hk⟩ := execLdKey_next h
    · exact .jump (a := t.pc) (.inl rfl)
    · obtain rfl := complete_next_iff.1 hk
      exact .straight rfl rfl rfl rfl
  | drw =>
    obtain ⟨-, rfl⟩ := exec_drw_next_iff.1 h
    exact .straight rfl rfl rfl rfl
  | ldBcd x =>
    obtain ⟨hfit, rfl⟩ := exec_ldBcd_next_iff.1 h
    exact .store _ hfit
  | storeRegs x =>
    obtain ⟨hfit, rfl⟩ := exec_storeRegs_next_iff.1 h
    exact .store _ (by rwa [regBlock_length])
  | loadRegs x =>
    obtain ⟨-, rfl⟩ := exec_loadRegs_next_iff.1 h
    unfold afterLoad
    generalize loadBlock x s = v
    exact .straight rfl rfl rfl rfl
  | _ =>
    obtain rfl := complete_next_iff.1 h
    exact .straight rfl rfl rfl rfl

/-- Inside the fetch range no advance of `pc` wraps (R101). -/
theorem pc_add_toNat {a b : Word} (ha : a.toNat ≤ 0xFFE) (hb : b.toNat ≤ 4) : (a + b).toNat = a.toNat + b.toNat := by
  rw [BitVec.toNat_add]; omega

/-- An instruction fetched inside memory keeps `pc` bounded: a jump has its own bound, a return one of the stack (R25). -/
theorem Flow.pc_le (h : Flow s t) (hpc : s.pc.toNat ≤ 0xFFE)
    (hstack : ∀ k : Fin Config.stackDepth, k.val < s.sp.val → (s.stack[k]).toNat ≤ 0x1000) : t.pc.toNat ≤ 0x10FE := by
  have hadd (b : Word) (hb : b.toNat ≤ 4) : (s.pc + b).toNat ≤ 0x10FE := by rw [pc_add_toNat hpc hb]; omega
  cases h with
  | straight h => exact h ▸ hadd 2 (by decide)
  | jump ha =>
    rcases ha with rfl | ⟨c, rfl⟩ | ha
    · exact hpc.trans (by decide)
    · exact hadd _ (by cases c <;> decide)
    · exact ha
  | store bs hfit => exact hadd 2 (by decide)
  | ret hsp =>
    have hle := sp_le s
    exact (hstack ⟨s.sp.val - 1, by simp only [Config.stackDepth]; omega⟩ (Nat.sub_one_lt_of_lt hsp)).trans (by decide)
  | call nnn hsp =>
    have := nnn.isLt
    rw [State.setPc_pc, zextAddr_toNat]; omega

/-- An instruction keeps the live return addresses bounded: the one a call adds is `pc + 2` (R67). -/
theorem Flow.stack_le (h : Flow s t) (hpc : s.pc.toNat ≤ 0xFFE)
    (hstack : ∀ k : Fin Config.stackDepth, k.val < s.sp.val → (s.stack[k]).toNat ≤ 0x1000)
    (k : Fin Config.stackDepth) (hk : k.val < t.sp.val) : (t.stack[k]).toNat ≤ 0x1000 := by
  cases h with
  | straight _ hstack' hsp => rw [hstack']; exact hstack k (hsp ▸ hk)
  | jump | store => exact hstack k hk
  | ret hsp => exact hstack k (hk.trans_le (Nat.sub_le _ _))
  | call nnn hsp =>
    by_cases hkey : s.sp.val = k.val
    · simp only [State.setPc_stack, State.setStack_stack, Fin.getElem_fin, Vector.getElem_set, if_pos hkey]
      rw [pc_add_toNat hpc (by decide)]
      exact Nat.add_le_add_right hpc 2
    · simp only [State.setPc_stack, State.setStack_stack, Fin.getElem_fin, Vector.getElem_set, if_neg hkey]
      exact hstack k (by simp only [State.setPc_sp, State.setStack_sp] at hk; omega)

theorem Flow.mem_wf (h : Flow s t) (hm : Memory.wf s.mem = true) : Memory.wf t.mem = true := by
  cases h with
  | straight _ _ _ hmem => rwa [hmem]
  | store bs hfit => exact Memory.wf_writeList hm hfit
  | jump | ret | call => exact hm

/-- The invariant speaks of the core, beside the random input. -/
theorem State.Inv.of_core_eq (hs : s.Inv) (hcore : t.toCoreState = s.toCoreState) (hrnd : t.rnd = none) : t.Inv where
  mem := hcore ▸ hs.mem
  pc := hcore ▸ hs.pc
  rnd := hrnd
  stack := hcore ▸ hs.stack

theorem State.Inv.chosen (hs : s.Inv) : s.chosen.Inv := hs.of_core_eq s.chosen_toCoreState (by rw [s.chosen_rnd, hs.rnd])

theorem State.Inv.advance (hs : s.Inv) {r : Option Byte} (h : advance r s = .next t) : t.Inv := by
  obtain ⟨i, u, hpc, -, hexec, rfl⟩ := advance_next h
  have hflow := flow_of_exec hexec
  exact ⟨hflow.mem_wf hs.mem, hflow.pc_le hpc hs.stack, rfl, hflow.stack_le hpc hs.stack⟩

theorem inv_reset : State.reset.Inv :=
  ⟨reset_mem_wf, by decide, rfl, fun k hk => absurd hk (Nat.not_lt_zero k.val)⟩

theorem State.Inv.invoke (hs : s.Inv) {op : HostOp} (h : invoke op s = .next t) : t.Inv := by
  cases op with
  | advance r => exact hs.advance h
  | advanceTimers =>
    obtain rfl : ticked s = t := Host.Outcome.next.inj h
    exact ⟨hs.mem, hs.pc, hs.rnd, hs.stack⟩
  | setKey index pressed =>
    obtain ⟨k, -, rfl⟩ := opSetKey_next h
    exact ⟨hs.mem, hs.pc, hs.rnd, hs.stack⟩
  | loadRom bytes =>
    obtain ⟨hfit, rfl⟩ := opLoadRom_next h
    exact ⟨Memory.wf_writeList hs.mem (by simp only [Config.memSize]; omega), hs.pc, hs.rnd, hs.stack⟩
  | reset =>
    obtain rfl : s.setCore CoreState.reset = t := Host.Outcome.next.inj h
    exact inv_reset.of_core_eq rfl hs.rnd

/-- After a condition the state is the one before it, so only next states matter. -/
theorem State.Inv.stateAfter (hs : s.Inv) {r : Result} (h : ∀ t, r = .next t → t.Inv) : (stateAfter s r).Inv := by
  cases r with
  | next t => exact h t rfl
  | fault | refused => exact hs

theorem State.Inv.session (hs : s.Inv) (ops : List HostOp) : (session ops s).1.Inv := by
  induction ops generalizing s with
  | nil => exact hs
  | cons op ops ih => exact ih (hs.stateAfter fun t h => hs.invoke h)

theorem State.Inv.turnBy (hs : s.Inv) (choose : Nat → HostOp) : (turnBy choose s).1.Inv := by
  refine hs.chosen.stateAfter fun t h => ?_
  rcases operationBy_cases choose s with ⟨op, rest, -, -, hc, he⟩ | ⟨-, -, -, hc, he⟩ | ⟨-, -, -, hc, he⟩
  · exact (hc ▸ hs.chosen).invoke (he.symm.trans h)
  · exact (hc ▸ hs.chosen).invoke (he.symm.trans h)
  · exact hs.advance (he.symm.trans h)

end Sys2Proof.Machine
end

section
/-! The statements of the invariant (10_state R25, R32, R67). -/

namespace Sys2Proof.Machine

/-- Settles O51: power-on memory has no cell, `pc` is 0x200 and no return address is live. -/
theorem resetHasInvariant : Obligations.ResetHasInvariant := inv_reset

/-- Settles O50: a step to a next state is a turn of the run of free choices, and a turn is an operation or a cycle. -/
theorem stepKeepsInvariant : Obligations.StepKeepsInvariant := fun _ _ hs h =>
  turnBy_of_step h ▸ hs.turnBy Config.freeOp

/-- Settles O52: operation after operation, from the reset state. -/
theorem everySessionKeepsInvariant : Obligations.EverySessionKeepsInvariant := inv_reset.session

/-- Settles O53: by induction on the number of turns, from the state after the first one. -/
theorem everyRunKeepsInvariant : Obligations.EveryRunKeepsInvariant := by
  intro choose n
  induction n with
  | zero => exact fun s hs => hs
  | succ n ih => exact fun s hs => ih _ (hs.turnBy choose)

end Sys2Proof.Machine
end

section
/-! The core and the inputs beside it (R20, R32, R33): an operation reads of a state its arguments, its random byte and the
core, and leaves the other inputs as they are. -/

namespace Sys2Proof.Machine

variable {s t u : State} {i : Instr} {op : HostOp}

/-- The outcome with the inputs of `u` beside its core. -/
def withInputsOf (u : State) : Result → Result
  | .next t => .next (u.setCore t.toCoreState)
  | .fault c => .fault c
  | .refused r => .refused r

theorem withRange_setCore (u s : State) {w : Word} {n : Nat} {body body' : Result} (hbody : body' = withInputsOf u body) :
    withRange w n (u.setCore s.toCoreState) body' = withInputsOf u (withRange w n s body) := by
  subst hbody
  by_cases h : n = 0 ∨ s.i.toNat + n ≤ 4096
  · rw [withRange_pos h, withRange_pos (s := u.setCore s.toCoreState) h]
  · rw [withRange_neg h, withRange_neg (s := u.setCore s.toCoreState) h]
    rfl

/-- Every instruction but `Cxnn` does to a core what it does to it beside other inputs, and keeps those (R33, R215). -/
theorem exec_setCore (hi : ∀ x nn, i ≠ .rnd x nn) (u s : State) :
    exec i (u.setCore s.toCoreState) = withInputsOf u (exec i s) := by
  cases i with
  | rnd x nn => exact absurd rfl (hi x nn)
  | ret =>
    rcases Nat.eq_zero_or_pos s.sp.val with h | h
    · exact (execRet_empty (s := u.setCore s.toCoreState) h).trans (congrArg (withInputsOf u) (execRet_empty h)).symm
    · exact (execRet_entry (s := u.setCore s.toCoreState) h).trans (congrArg (withInputsOf u) (execRet_entry h)).symm
  | call nnn =>
    rcases (sp_le s).lt_or_eq with h | h
    · exact (execCall_room (s := u.setCore s.toCoreState) nnn h).trans
        (congrArg (withInputsOf u) (execCall_room nnn h)).symm
    · exact (execCall_full (s := u.setCore s.toCoreState) nnn h).trans
        (congrArg (withInputsOf u) (execCall_full nnn h)).symm
  | skp x | sknp x =>
    have hreg : (u.setCore s.toCoreState).reg x = s.reg x := rfl
    simp only [exec, execSkp, execSknp, hreg]
    cases keyNumber (s.reg x) <;> rfl
  | ldKey x =>
    have hkey : lowestPressed (u.setCore s.toCoreState) = lowestPressed s := rfl
    simp only [exec, execLdKey, hkey]
    cases lowestPressed s <;> rfl
  | drw | ldBcd | storeRegs => exact withRange_setCore u s rfl
  | loadRegs x =>
    have hblock : loadBlock x (u.setCore s.toCoreState) = loadBlock x s := rfl
    simp only [exec, execLoadRegs, hblock]
    generalize loadBlock x s = v
    exact withRange_setCore u s rfl
  | _ => rfl

theorem eq_setCore_of_core_eq (hcore : u.toCoreState = s.toCoreState) : u = u.setCore s.toCoreState := by
  rw [← hcore]
  rfl

theorem exec_of_core_eq (hi : ∀ x nn, i ≠ .rnd x nn) (hcore : u.toCoreState = s.toCoreState) :
    exec i u = withInputsOf u (exec i s) := by
  rw [← exec_setCore hi, ← eq_setCore_of_core_eq hcore]

/-- The inputs stand as they were after every instruction but `Cxnn`. -/
theorem eq_setCore_of_exec (hi : ∀ x nn, i ≠ .rnd x nn) (h : exec i s = .next t) : t = s.setCore t.toCoreState := by
  have hself := exec_of_core_eq hi (rfl : s.toCoreState = s.toCoreState)
  rw [h] at hself
  exact Host.Outcome.next.inj hself

/-! The outcome on the core. -/

/-- The outcome with the inputs left out. -/
def coreOf : Result → Host.Outcome CoreState Fault Refusal
  | .next t => .next t.toCoreState
  | .fault c => .fault c
  | .refused r => .refused r

theorem coreOf_withInputsOf (u : State) (r : Result) : coreOf (withInputsOf u r) = coreOf r := by cases r <;> rfl

theorem coreOf_endCycle (r : Result) : coreOf (endCycle r) = coreOf r := by cases r <;> rfl

/-- What an instruction does to the core depends on the core and, for `Cxnn`, on the random byte (R33, R141). -/
theorem coreOf_exec_congr (hcore : u.toCoreState = s.toCoreState) (hrnd : u.rndByte = s.rndByte) (i : Instr) :
    coreOf (exec i u) = coreOf (exec i s) := by
  by_cases hi : ∀ x nn, i ≠ .rnd x nn
  · rw [exec_of_core_eq hi hcore, coreOf_withInputsOf]
  · obtain ⟨x, nn, rfl⟩ : ∃ x nn, i = .rnd x nn := by simpa using hi
    obtain ⟨c, _, _, _, _, _⟩ := u
    obtain rfl : c = s.toCoreState := hcore
    simp only [exec, execRnd, hrnd]
    rfl

theorem coreOf_advance_congr {r r' : Option Byte} (hcore : u.toCoreState = s.toCoreState)
    (hrnd : (u.withRnd r).rndByte = (s.withRnd r').rndByte) : coreOf (advance r u) = coreOf (advance r' s) := by
  have hfetch : fetch u = fetch s := by simp only [fetch, State.wordAt, State.byte, hcore]
  simp only [advance, hfetch, hcore]
  cases fetch s with
  | none => rfl
  | some w =>
    dsimp only
    cases decodeWord w with
    | error e => rfl
    | ok i =>
      rw [coreOf_endCycle, coreOf_endCycle]
      exact coreOf_exec_congr (u := u.withRnd r) (s := s.withRnd r') hcore hrnd i

/-- The host's operations other than `advance` read no input and keep them all (R33). -/
theorem invoke_setCore (hop : ∀ b, op ≠ .advance b) (u s : State) :
    invoke op (u.setCore s.toCoreState) = withInputsOf u (invoke op s) := by
  cases op with
  | advance b => exact absurd rfl (hop b)
  | advanceTimers | reset => rfl
  | setKey index pressed =>
    simp only [invoke, opSetKey]
    cases keyNumber index <;> rfl
  | loadRom bytes =>
    simp only [invoke, opLoadRom]
    split <;> rfl

theorem eq_setCore_of_invoke (hop : ∀ b, op ≠ .advance b) (h : invoke op s = .next t) : t = s.setCore t.toCoreState := by
  have hself := invoke_setCore hop s s
  rw [← eq_setCore_of_core_eq rfl, h] at hself
  exact Host.Outcome.next.inj hself

theorem coreOf_invoke_congr (hcore : u.toCoreState = s.toCoreState) (op : HostOp) :
    coreOf (invoke op u) = coreOf (invoke op s) := by
  by_cases hop : ∀ b, op ≠ .advance b
  · rw [eq_setCore_of_core_eq hcore, invoke_setCore hop, coreOf_withInputsOf]
  · obtain ⟨b, rfl⟩ : ∃ b, op = .advance b := by simpa using hop
    exact coreOf_advance_congr hcore rfl

/-! What the host sees: the core after an operation, a session or a turn, and its answers (R212). -/

/-- The core and the answers, the inputs left out. -/
def seen {α : Type} (p : State × α) : CoreState × α := (p.1.toCoreState, p.2)

/-- The core after an operation and its answer are read off its outcome on the core. -/
theorem seen_congr {r r' : Result} (hcore : u.toCoreState = s.toCoreState) (hr : coreOf r = coreOf r') (b : Bool) :
    seen (stateAfter u r, replyOf b r) = seen (stateAfter s r', replyOf b r') := by
  cases r with
  | next t =>
    cases r' with
    | next t' => exact Prod.ext (Host.Outcome.next.inj hr) rfl
    | fault | refused => exact absurd hr (by simp [coreOf])
  | fault c =>
    cases r' with
    | fault c' => exact Prod.ext hcore (congrArg Reply.condition (Host.Outcome.fault.inj hr))
    | next | refused => exact absurd hr (by simp [coreOf])
  | refused q =>
    cases r' with
    | refused q' => exact Prod.ext hcore (congrArg Reply.refusal (Host.Outcome.refused.inj hr))
    | next | fault => exact absurd hr (by simp [coreOf])

theorem seen_hostStep_congr (hcore : u.toCoreState = s.toCoreState) (op : HostOp) :
    seen (hostStep op u) = seen (hostStep op s) := by
  rw [hostStep, hostStep, tone_of_core hcore op]
  exact seen_congr hcore (coreOf_invoke_congr hcore op) _

theorem seen_hostStep (op : HostOp) (s : State) : seen (hostStep op s) = operate op s.toCoreState :=
  seen_hostStep_congr (u := s) (s := s.toCoreState.withoutInputs) rfl op

theorem seen_session_congr (hcore : u.toCoreState = s.toCoreState) (ops : List HostOp) :
    seen (session ops u) = seen (session ops s) := by
  induction ops generalizing u s with
  | nil => exact Prod.ext hcore rfl
  | cons op ops ih =>
    obtain ⟨hnext, hreply⟩ := Prod.mk.inj (seen_hostStep_congr hcore op)
    obtain ⟨hlast, hreplies⟩ := Prod.mk.inj (ih hnext)
    rw [session_cons, session_cons, hreply, hreplies]
    exact Prod.ext hlast rfl

theorem seen_turnBy_of_choice {choose : Nat → HostOp} (h : s.choice choose = some op) :
    seen (turnBy choose s) = operate op s.toCoreState := by
  rw [turnBy_of_choice h, seen_hostStep, State.chosen_toCoreState]

/-- A turn of a host that only advances is an `advance` with the environment's free byte (R141). -/
theorem seen_turnBy_of_advancing {choose : Nat → HostOp} (h : s.choice choose = none) :
    seen (turnBy choose s) = operate (.advance (Config.freeRnd s.draws)) s.toCoreState := by
  rw [turnBy_of_advancing h, ← State.chosen_toCoreState, ← seen_hostStep]
  exact seen_congr rfl (coreOf_advance_congr rfl (by simp [State.rndByte])) false

/-! The inputs an operation leaves alone (R211). -/

theorem invoke_inputs (h : invoke op s = .next t) : t.host = s.host ∧ t.plan = s.plan ∧ t.picks = s.picks := by
  obtain ⟨⟨hhost, hplan⟩, hpicks, -⟩ := (operationsKeepWriterTable op s t).2 _ (hostStep_of_next h)
  exact ⟨hhost, hplan, hpicks⟩

/-- The same whatever the operation answers. -/
theorem hostStep_inputs (op : HostOp) (s : State) : (hostStep op s).1.host = s.host ∧
    (hostStep op s).1.plan = s.plan ∧ (hostStep op s).1.picks = s.picks := by
  rcases hostStep_cases op s with ⟨t, hnext, h⟩ | ⟨c, -, h⟩ | ⟨r, -, h⟩ <;> rw [h]
  · exact invoke_inputs hnext
  · exact ⟨rfl, rfl, rfl⟩
  · exact ⟨rfl, rfl, rfl⟩

/-- A step takes the operation it makes off the script and keeps the plan. -/
theorem step_inputs (h : step s = .next t) : t.host = s.host.tail ∧ t.plan = s.plan := by
  rcases step_cases s with ⟨op, rest, hs, he⟩ | ⟨hs, -, he⟩ | ⟨hs, -, he⟩ <;> rw [hs]
  · obtain ⟨hhost, hplan, -⟩ := invoke_inputs (he.symm.trans h)
    exact ⟨hhost, hplan⟩
  · obtain ⟨hhost, hplan, -⟩ := invoke_inputs (he.symm.trans h)
    exact ⟨hhost.trans hs, hplan⟩
  · obtain ⟨i, u, -, -, hexec, rfl⟩ := advance_next (he.symm.trans h)
    obtain ⟨hframe, -⟩ := keepsRow_of_exec hexec
    obtain ⟨hhost, hplan⟩ := hframe .host (host_not_mem_mayChange i)
    exact ⟨hhost.trans hs, hplan⟩

end Sys2Proof.Machine
end

section
/-! Runs: the operations of a run's turns, the same operations under another script, and a jump to itself (R211, R269). -/

namespace Sys2Proof.Machine

variable {s t : State} {i : Instr} {op : HostOp}

/-! The operations of the first turns. -/

theorem firstOps_congr {u : State} (hhost : u.host = s.host) (hpicks : u.picks = s.picks) (choose : Nat → HostOp) (n : Nat) :
    u.firstOps choose n = s.firstOps choose n := by
  rw [State.firstOps, State.firstOps, hhost, hpicks]

theorem firstOps_length (choose : Nat → HostOp) (n : Nat) (s : State) : (s.firstOps choose n).length = n := by
  simp only [State.firstOps, List.length_take, List.length_append, List.length_map, List.length_range]
  omega

/-- The first of them is the one chosen now, the others are those of the state in which that choice is made. -/
theorem firstOps_succ {choose : Nat → HostOp} (h : s.choice choose = some op) (n : Nat) :
    s.firstOps choose (n + 1) = op :: s.chosen.firstOps choose n := by
  rcases operationBy_cases choose s with ⟨o, rest, hs, hc, hs', -⟩ | ⟨hs, -, hc, hs', -⟩ | ⟨-, -, hc, -, -⟩
  · obtain rfl : o = op := Option.some.inj (hc.symm.trans h)
    rw [hs', State.firstOps, State.firstOps, hs, List.cons_append, List.take_succ_cons, List.range_succ, List.map_append,
      ← List.append_assoc, List.take_append_of_le_length (by simp)]
    rfl
  · obtain rfl : choose s.picks = op := Option.some.inj (hc.symm.trans h)
    rw [hs', State.firstOps, State.firstOps, hs, List.range_succ_eq_map]
    simp [hs, Function.comp_def, Nat.add_assoc, Nat.add_comm 1]
  · simp [hc] at h

theorem choice_of_anything (hplan : s.plan = .anything) (choose : Nat → HostOp) : ∃ op, s.choice choose = some op := by
  cases hs : s.host with
  | nil => exact ⟨choose s.picks, by simp [State.choice, hs, hplan]⟩
  | cons op rest => exact ⟨op, by simp [State.choice, hs]⟩

/-- The turns of a run of a host that may do anything are the session of its operations, as the host sees it. -/
theorem seen_turnsBy (choose : Nat → HostOp) (n : Nat) (hplan : s.plan = .anything) :
    seen (turnsBy choose n s) = seen (session (s.firstOps choose n) s) := by
  induction n generalizing s with
  | zero => simp [turnsBy, State.firstOps, session]
  | succ n ih =>
    obtain ⟨op, hc⟩ := choice_of_anything hplan choose
    obtain ⟨hhost, hplan', hpicks⟩ := hostStep_inputs op s.chosen
    obtain ⟨hcore, hreply⟩ := Prod.mk.inj (seen_hostStep_congr s.chosen_toCoreState op)
    have hrest : seen (turnsBy choose n (hostStep op s.chosen).1) =
        seen (session (s.chosen.firstOps choose n) (hostStep op s).1) := by
      rw [ih (by rw [hplan', State.chosen_plan, hplan]), firstOps_congr hhost hpicks, seen_session_congr hcore]
    obtain ⟨hlast, hreplies⟩ := Prod.mk.inj hrest
    rw [turnsBy_succ, turnBy_of_choice hc, firstOps_succ hc, session_cons, hreply, hreplies]
    exact Prod.ext hlast rfl

/-! A run of the machine. -/

/-- A step to a condition is a turn that leaves all but the choice as it was (R9, R211). -/
theorem turnBy_of_fault {c : Fault} (h : step s = .fault c) : turnBy Config.freeOp s = (s.chosen, .condition c) := by
  have h' : operationBy Config.freeOp s = .fault c := h
  simp [turnBy, replyBy, h', State.afterCondition]

/-- A run of one step more that reaches a state made its first step to a state. -/
theorem next_of_run_succ {n : Nat} (h : Host.Core.run Sys2Proof.core (n + 1) s = .next t) :
    ∃ u, step s = .next u ∧ Host.Core.run Sys2Proof.core n u = .next t := by
  cases hs : Sys2Proof.core.step s with
  | next u => exact ⟨u, hs, (run_succ_of_next n hs).symm.trans h⟩
  | fault | refused => simp [Host.Core.run, hs] at h

/-! The script of the host is no part of what an operation reads. -/

theorem exec_setHost (h : exec i s = .next t) (ops : List HostOp) : exec i (s.setHost ops) = .next (t.setHost ops) := by
  by_cases hi : ∀ x nn, i ≠ .rnd x nn
  · rw [exec_of_core_eq hi (s.toCoreState_setHost ops), h, withInputsOf, eq_setCore_of_exec hi h]
    rfl
  · obtain ⟨x, nn, rfl⟩ : ∃ x nn, i = .rnd x nn := by simpa using hi
    obtain rfl := complete_next_iff.1 h
    rfl

theorem invoke_setHost (h : invoke op s = .next t) (ops : List HostOp) :
    invoke op (s.setHost ops) = .next (t.setHost ops) := by
  by_cases hop : ∀ b, op ≠ .advance b
  · rw [eq_setCore_of_core_eq (s.toCoreState_setHost ops), invoke_setCore hop, h, withInputsOf,
      eq_setCore_of_invoke hop h]
    rfl
  · obtain ⟨b, rfl⟩ : ∃ b, op = .advance b := by simpa using hop
    obtain ⟨i, u, hpc, hi, hexec, rfl⟩ := advance_next h
    have hrun := advance_of_decodes (s := s.setHost ops) hpc hi (some b)
    exact hrun.trans (congrArg endCycle (exec_setHost hexec ops))

/-! A jump to itself. -/

/-- The word a finished run is at is that of the jump to its own address (R269). -/
theorem jump_of_finished (h : s.finished = true) : s.pc.toNat ≤ 0xFFE ∧ s.pc.toNat < 0x1000 ∧
    decodeWord (s.wordAt s.pc.toNat) = .ok (.jp (BitVec.ofNat 12 s.pc.toNat)) := by
  obtain ⟨hfetch, hlt⟩ : fetch s = some (BitVec.ofNat 16 (0x1000 + s.pc.toNat)) ∧ s.pc.toNat < 0x1000 := by
    simpa [State.finished] using h
  rcases Nat.lt_or_ge 0xFFE s.pc.toNat with hpc | hpc
  · simp [fetch_outside hpc] at hfetch
  · refine ⟨hpc, hlt, ?_⟩
    have hword : encode (.jp (BitVec.ofNat 12 s.pc.toNat)) = BitVec.ofNat 16 (0x1000 + s.pc.toNat) := by
      rw [encode, formNNN, BitVec.toNat_ofNat, Nat.mod_eq_of_lt hlt]
    rw [Option.some.inj ((fetch_inside hpc).symm.trans hfetch), ← hword, decodeWord_encode]

/-- A cycle at a jump to itself changes nothing but the random input (R106, R269). -/
theorem step_of_finished (h : s.finished = true) (hhost : s.host = []) (hplan : s.plan = .advancing) :
    step s = .next (s.withRnd none) := by
  obtain ⟨hpc, hlt, hi⟩ := jump_of_finished h
  have htarget : zextAddr (BitVec.ofNat 12 s.pc.toNat) = s.pc := by
    apply BitVec.eq_of_toNat_eq
    rw [zextAddr_toNat, BitVec.toNat_ofNat, Nat.mod_eq_of_lt hlt]
  rw [step_of_advancing hhost hplan, advance_of_decodes hpc hi, exec, execJp, htarget]
  rfl

end Sys2Proof.Machine
end

section
/-! The statements of the inputs, the host's sequences and the end of a run (10_state R32, R33, 45_host_operations R211, R215,
70_reset_and_hazards R269). -/

namespace Sys2Proof.Machine

/-- Settles O24: the random input is one of the inputs that every instruction but `Cxnn` leaves alone. -/
theorem onlyRandomReadsRnd : Obligations.OnlyRandomReadsRnd := by
  intro i s r hi
  have hexec : exec i (s.withRnd r) = withInputsOf (s.withRnd r) (exec i s) := exec_of_core_eq hi (s.toCoreState_withRnd r)
  refine ⟨fun t h => ?_, fun c h => by rw [hexec, h, withInputsOf]⟩
  rw [hexec, h, withInputsOf, eq_setCore_of_exec hi h]
  rfl

/-- Settles O55: the outcome on the core is that from the same core with no inputs. -/
theorem operationDependsOnArgumentsAndCore : Obligations.OperationDependsOnArgumentsAndCore := seen_hostStep

/-- Settles O54: by induction on the number of turns, and of steps; the choices of a run are counted from `picks`. -/
theorem everyHostSequenceIsARun : Obligations.EveryHostSequenceIsARun := by
  refine ⟨fun choose n s hplan => ?_, fun s ops hs => ?_, fun n => ?_⟩
  · obtain ⟨hcore, hreplies⟩ := Prod.mk.inj (seen_turnsBy choose n hplan)
    exact ⟨firstOps_length choose n s, hcore, hreplies⟩
  · refine ⟨fun k => ops (k - s.picks), fun n => ?_⟩
    simp [State.firstOps, hs, List.take_of_length_le]
  · induction n with
    | zero => exact fun s t h => Host.Outcome.next.inj h
    | succ n ih =>
      intro s t h
      obtain ⟨u, hstep, hrun⟩ := next_of_run_succ h
      rw [turnsBy_succ, turnBy_of_step hstep]
      exact ih u t hrun

/-- Settles O56: a step is a turn, and a turn is the operation chosen or an `advance` with the environment's byte. -/
theorem stepIsAnOperationOnTheCore : Obligations.StepIsAnOperationOnTheCore := by
  intro s
  have hturn (op : HostOp) (h : seen (turnBy Config.freeOp s) = operate op s.toCoreState) :
      nextReply s = (operate op s.toCoreState).2 ∧
      (∀ t, step s = .next t → t.toCoreState = (operate op s.toCoreState).1 ∧ t.host = s.host.tail ∧ t.plan = s.plan) ∧
      ∀ c, step s = .fault c → operate op s.toCoreState = (s.toCoreState, .condition c) := by
    rw [← h]
    refine ⟨rfl, fun t hnext => ⟨?_, step_inputs hnext⟩, fun c hfault => ?_⟩
    · rw [seen, turnBy_of_step hnext]
    · rw [turnBy_of_fault hfault, seen, State.chosen_toCoreState]
  rcases operationBy_cases Config.freeOp s with ⟨op, rest, hs, hc, -⟩ | ⟨hs, hp, hc, -⟩ | ⟨hs, hp, hc, -⟩
  · refine ⟨op, ?_, ?_, ?_, hturn op (seen_turnBy_of_choice hc)⟩ <;> simp [hs]
  · refine ⟨_, ?_, ?_, ?_, hturn _ (seen_turnBy_of_choice hc)⟩ <;> simp [hs, hp]
  · refine ⟨_, ?_, ?_, ?_, hturn _ (seen_turnBy_of_advancing hc)⟩ <;> simp [hs, hp]

/-- Settles O57: by induction on the script; each operation succeeds under the rest of the script as it does in the session. -/
theorem stepsRunTheHostSession : Obligations.StepsRunTheHostSession := by
  intro ops
  induction ops with
  | nil =>
    intro s t rs hs hsession _
    obtain ⟨rfl, rfl⟩ := Prod.mk.inj hsession
    have hscript : s.setHost [] = s := by rw [← hs]; rfl
    exact ⟨congrArg Host.Outcome.next hscript, rfl⟩
  | cons op ops ih =>
    intro s t rs hs hsession hall
    rw [session_cons] at hsession
    obtain ⟨ht, rfl⟩ := Prod.mk.inj hsession
    obtain ⟨b, hb⟩ := hall _ List.mem_cons_self
    have hnext : invoke op s = .next (hostStep op s).1 := invoke_of_success (Prod.ext rfl hb)
    obtain ⟨hhost, -, -⟩ := hostStep_inputs op s
    have hstep : step (s.setHost (op :: ops)) = .next ((hostStep op s).1.setHost ops) :=
      (step_of_script rfl).trans (invoke_setHost hnext ops)
    have hreply : nextReply (s.setHost (op :: ops)) = (hostStep op s).2 :=
      (nextReply_of_script rfl).trans (Prod.mk.inj (seen_hostStep_congr (s.toCoreState_setHost ops) op)).2
    obtain ⟨hrun, hreplies⟩ := ih (hostStep op s).1 t _ (hhost.trans hs) (Prod.ext ht rfl)
      fun r hr => hall r (List.mem_cons_of_mem _ hr)
    rw [List.length_cons, run_succ_of_next _ hstep, scriptReplies_succ_of_next _ hstep, hreply, hreplies]
    exact ⟨hrun, rfl⟩

/-- Settles O58: by induction on the number of steps, each of which only takes the random input off. -/
theorem finishedRunStaysFinished : Obligations.FinishedRunStaysFinished := by
  intro s n
  induction n generalizing s with
  | zero => exact fun hfin _ _ => ⟨s, rfl, hfin, OnlyChanges.refl _ s⟩
  | succ n ih =>
    intro hfin hhost hplan
    obtain ⟨t, hrun, ht, hframe⟩ := ih (s.withRnd none) hfin hhost hplan
    refine ⟨t, (run_succ_of_next n (step_of_finished hfin hhost hplan)).trans hrun, ht, fun p hp => ?_⟩
    have := hframe p hp
    cases p with
    | rnd => exact absurd (by decide) hp
    | _ => exact this

end Sys2Proof.Machine
end
